-- ==== Sys2Proof/Word.lean ====
section
/-! DEFINITION. The word types of the CORE (R8, R10, R11, R20): bytes, register indices and the operand-count field. -/

namespace Sys2Proof

/-- A byte: a register, a memory cell, an address 0..255, the program counter (R8, R11). -/
abbrev Byte := BitVec 8

/-- A register index 0..7 (R20). -/
abbrev Reg := Fin 8

/-- The operand-count field `n` = `IR[7:6]` of an instruction byte (R61), a plain unsigned 2-bit field. -/
abbrev Count := BitVec 2

end Sys2Proof
end

