-- ==== Sys2Proof/Config.lean ====
section
/-! DEFINITION. What is fixed for one machine (R8): the names of the 17 instructions, their categories and operand
formats as types, the constants of the block, and the record of the five named parameters. The parameters' default
values stand in Decode.lean, where a later repair can mend them. The spec leaves no value free, so nothing here is
opaque. -/

namespace Sys2Proof

/-- `MEM_SIZE` (R8, R32): the number of byte cells of memory. -/
def memSize : Nat := 256

/-- `NREGS` (R8, R20): the number of general registers. -/
def numRegs : Nat := 8

/-- `SP_INDEX` (R8, R21): register 7 is the stack pointer. -/
def spIndex : Reg := 7

/-- The 17 instruction names, in the order of R66's table. -/
inductive Op where
  | hlt | ldi | push | pop | prn
  | add | mul | cmp
  | call | ret | jmp | jeq | jne | jgt | jlt | jle | jge
  deriving DecidableEq, Repr

/-- The three dispatch tables (R14, R62). -/
inductive Category where
  | data | alu | special
  deriving DecidableEq, Repr

/-- The operand formats of R65. -/
inductive Format where
  /-- no operand byte -/
  | f0
  /-- one operand byte, decoded as a register reference and then ignored (RET) -/
  | f0s
  /-- one register reference -/
  | f1r
  /-- two register references -/
  | f2rr
  /-- a register reference and an immediate byte -/
  | f2ri
  deriving DecidableEq, Repr

/-- `OUT_OF_RANGE_POLICY` (R43, D5): what an address above 255 does. -/
inductive OutOfRangePolicy where
  /-- the access is not performed and the instruction raises `AddressOutOfRange` -/
  | fault
  /-- every address is taken mod 256 -/
  | wrap
  deriving DecidableEq, Repr

/-- One row of `OPCODE_ASSIGN` (R66, D1): an instruction and its 4-bit `op` value. -/
abbrev OpcodeRow := Op × BitVec 4

/-- The five parameters of the CORE (R8). The block has one configuration, `Config.default` (R2): `exec` and `step`
run that one. The versions of the definitions that take a `Config` give the other settings the spec describes. -/
structure Config where
  /-- `OPCODE_ASSIGN` (D1): the `op` value of each instruction -/
  opcodes : List OpcodeRow
  /-- `STRICT_DECODE` (D2): only canonical instruction bytes decode -/
  strictDecode : Bool
  /-- `RET_DECODES_OPERAND` (D9): RET decodes the byte at `pc + 1` and ignores the index -/
  retDecodesOperand : Bool
  /-- `OUT_OF_RANGE_POLICY` (D5) -/
  outOfRange : OutOfRangePolicy
  /-- `SP_RESET` (R9, D20): the reset value of `x[7]` -/
  spReset : Byte
  deriving DecidableEq, Repr

end Sys2Proof
end

