-- ==== Sys2Proof/Syntax.lean ====
section
/-! DEFINITION. The instructions of the CORE (R66), one constructor per row of spec/opcode_table.json.

A term holds everything the instruction's bytes say beyond its name. `n` is the operand-count field, which selects
nothing and sets the advance `1 + n` (R67, R86). `f` is the ALU flag of a special instruction's byte, which the spec
ignores (R62); it is kept so that no bit of an encoding is dropped. Register operands are indices, already checked by
the register-reference decode (R63). -/

namespace Sys2Proof

inductive Instr where
  /-- HLT (R155): no operand -/
  | hlt (n : Count)
  /-- LDI Rr, imm (R151) -/
  | ldi (n : Count) (r : Reg) (imm : Byte)
  /-- PUSH Rr (R153) -/
  | push (n : Count) (r : Reg)
  /-- POP Rr (R154) -/
  | pop (n : Count) (r : Reg)
  /-- PRN Rr (R152) -/
  | prn (n : Count) (r : Reg)
  /-- ADD Ra, Rb (R101) -/
  | add (n : Count) (a b : Reg)
  /-- MUL Ra, Rb (R102) -/
  | mul (n : Count) (a b : Reg)
  /-- CMP Ra, Rb (R103) -/
  | cmp (n : Count) (a b : Reg)
  /-- CALL Rr (R120) -/
  | call (n : Count) (f : Bool) (r : Reg)
  /-- RET (R121): `ignored` is the index decoded from the byte at `pc + 1` and then ignored, or `none` where
  `RET_DECODES_OPERAND` is false and no operand byte is read (R65, format F0S) -/
  | ret (n : Count) (f : Bool) (ignored : Option Reg)
  /-- JMP Rr (R122) -/
  | jmp (n : Count) (f : Bool) (r : Reg)
  /-- JEQ Rr (R123) -/
  | jeq (n : Count) (f : Bool) (r : Reg)
  /-- JNE Rr (R124) -/
  | jne (n : Count) (f : Bool) (r : Reg)
  /-- JGT Rr (R126) -/
  | jgt (n : Count) (f : Bool) (r : Reg)
  /-- JLT Rr (R128) -/
  | jlt (n : Count) (f : Bool) (r : Reg)
  /-- JLE Rr (R127) -/
  | jle (n : Count) (f : Bool) (r : Reg)
  /-- JGE Rr (R125) -/
  | jge (n : Count) (f : Bool) (r : Reg)
  deriving DecidableEq, Repr

end Sys2Proof
end

