-- ==== Sys2Proof/Decode.lean ====
section
/-! DEFINITION. Encoding tables, the decoder (total on any bytes, rejecting by name) and, after it, the encoder.
Rules: R60 to R74 (30_encoding.md), with the lookup and operand-read order of R83 and R84. -/

namespace Sys2Proof

/-! ## The tables of R65 and R66 -/

/-- The dispatch table an instruction stands in (R66). -/
def Op.category : Op → Category
  | .hlt | .ldi | .push | .pop | .prn => .data
  | .add | .mul | .cmp => .alu
  | .call | .ret | .jmp | .jeq | .jne | .jgt | .jlt | .jle | .jge => .special

/-- The operand format of an instruction (R65). -/
def Op.format : Op → Format
  | .hlt => .f0
  | .ldi => .f2ri
  | .push | .pop | .prn => .f1r
  | .add | .mul | .cmp => .f2rr
  | .ret => .f0s
  | .call | .jmp | .jeq | .jne | .jgt | .jlt | .jle | .jge => .f1r

/-- The canonical operand count of a format (R65). -/
def Format.count : Format → Count
  | .f0 | .f0s => 0
  | .f1r => 1
  | .f2rr | .f2ri => 2

/-- `OPCODE_ASSIGN`'s default (R66, D1): the `op` numbers of the LS-8 convention. UNVERIFIED against the original
repository, unsafe: assumption log 1. -/
def defaultOpcodes : List OpcodeRow :=
  [(.hlt, 1), (.ldi, 2), (.push, 5), (.pop, 6), (.prn, 7)] ++
  [(.add, 0), (.mul, 2), (.cmp, 7)] ++
  [(.call, 0), (.ret, 1), (.jmp, 4), (.jeq, 5), (.jne, 6)] ++
  [(.jgt, 7), (.jlt, 8), (.jle, 9), (.jge, 10)]

/-- The one configuration of the CORE: every parameter at the value of R8. -/
def Config.default : Config where
  opcodes := defaultOpcodes
  strictDecode := false
  retDecodesOperand := true
  outOfRange := .fault
  spReset := 0xF3

/-- All 17 instruction names. -/
def Op.all : List Op :=
  [.hlt, .ldi, .push, .pop, .prn, .add, .mul, .cmp, .call] ++
  [.ret, .jmp, .jeq, .jne, .jgt, .jlt, .jle, .jge]

/-- An opcode table names every instruction, each once (R66), and no two instructions of one category share an `op`
value (R71). -/
abbrev Config.Valid (c : Config) : Prop :=
  (∀ o ∈ Op.all, o ∈ c.opcodes.map Prod.fst) ∧
  (c.opcodes.map Prod.fst).Nodup ∧
  c.opcodes.Pairwise fun p q => p.1.category = q.1.category → p.2 ≠ q.2

/-! ## The fields of the instruction byte (R61, R62) -/

/-- `n` = `IR[7:6]`. -/
def irCount (ir : Byte) : Count := ir.extractLsb' 6 2

/-- `A` = `IR[5]`. -/
def irAlu (ir : Byte) : Bool := ir.getLsbD 5

/-- `S` = `IR[4]`. -/
def irSpecial (ir : Byte) : Bool := ir.getLsbD 4

/-- `op` = `IR[3:0]`. -/
def irOp (ir : Byte) : BitVec 4 := ir.extractLsb' 0 4

/-- The category of an instruction byte: `S` is looked at first, then `A` (R62). -/
def irCategory (ir : Byte) : Category :=
  if irSpecial ir then .special else if irAlu ir then .alu else .data

/-- An instruction byte put together from its four fields (R61). -/
def headByte (n : Count) (a s : Bool) (op : BitVec 4) : Byte :=
  n ++ BitVec.ofBool a ++ BitVec.ofBool s ++ op

/-- The canonical instruction byte of a table row: the canonical count, and `A` = 0 for special instructions (R66). -/
def canonicalByte (row : OpcodeRow) : Byte :=
  headByte row.1.format.count (row.1.category == .alu) (row.1.category == .special) row.2

/-- The table lookup (R67, R83): by category and `op` alone, or, under `STRICT_DECODE`, by the whole byte. -/
def selectOp (c : Config) (ir : Byte) : Option Op :=
  match c.opcodes.find? fun row => row.1.category == irCategory ir && row.2 == irOp ir with
  | none => none
  | some row => if c.strictDecode && ir != canonicalByte row then none else some row.1

/-! ## Operands (R63, R64, R65, R84) -/

/-- Why bytes are no instruction, by name. -/
inductive DecodeError where
  /-- no table entry for this instruction byte (R68) -/
  | invalidInstruction (ir : Byte)
  /-- a register-reference byte with a bit of 7:3 set (R63) -/
  | invalidRegisterReference (b : Byte)
  /-- the byte at distance `k` from the instruction byte does not exist (R84: `pc + k` is out of range) -/
  | missingByte (k : Nat)
  deriving DecidableEq, Repr

/-- `RegRef(b)` (R63): bits 7:3 must be zero, and bits 2:0 are the index. -/
def regRef (b : Byte) : Except DecodeError Reg :=
  if b.extractLsb' 3 5 = 0 then .ok (b.extractLsb' 0 3).toFin else .error (.invalidRegisterReference b)

/-- The operand byte at distance `k` (R84). -/
def operandByte (bytes : List Byte) (k : Nat) : Except DecodeError Byte :=
  match bytes[k]? with
  | some b => .ok b
  | none => .error (.missingByte k)

/-- The operand byte at distance `k` as a register reference: its address is checked first, then its bits (R84). -/
def operandReg (bytes : List Byte) (k : Nat) : Except DecodeError Reg :=
  match operandByte bytes k with
  | .ok b => regRef b
  | .error e => .error e

/-- Format F1R: one register reference. -/
def readF1R (bytes : List Byte) (mk : Reg → Instr) : Except DecodeError Instr :=
  match operandReg bytes 1 with
  | .ok r => .ok (mk r)
  | .error e => .error e

/-- Format F2RR: two register references, the first byte read and checked before the second. -/
def readF2RR (bytes : List Byte) (mk : Reg → Reg → Instr) : Except DecodeError Instr :=
  match operandReg bytes 1 with
  | .error e => .error e
  | .ok a =>
    match operandReg bytes 2 with
    | .ok b => .ok (mk a b)
    | .error e => .error e

/-- Format F2RI: a register reference, then an immediate byte used as it is (R64). -/
def readF2RI (bytes : List Byte) (mk : Reg → Byte → Instr) : Except DecodeError Instr :=
  match operandReg bytes 1 with
  | .error e => .error e
  | .ok r =>
    match operandByte bytes 2 with
    | .ok imm => .ok (mk r imm)
    | .error e => .error e

/-- Format F0S: under `RET_DECODES_OPERAND` the byte at distance 1 is decoded as a register reference and the index is
not used; otherwise no operand byte is read (R65, D9). -/
def readF0S (c : Config) (bytes : List Byte) (mk : Option Reg → Instr) : Except DecodeError Instr :=
  if c.retDecodesOperand then
    match operandReg bytes 1 with
    | .ok r => .ok (mk (some r))
    | .error e => .error e
  else .ok (mk none)

/-! ## The decoder -/

/-- The operand read of the selected instruction (R84), in its format (R65). `n` and `f` are the count and ALU flag of
the instruction byte. -/
def readOperands (c : Config) (n : Count) (f : Bool) (bytes : List Byte) : Op → Except DecodeError Instr
  | .hlt => .ok (.hlt n)
  | .ldi => readF2RI bytes (.ldi n)
  | .push => readF1R bytes (.push n)
  | .pop => readF1R bytes (.pop n)
  | .prn => readF1R bytes (.prn n)
  | .add => readF2RR bytes (.add n)
  | .mul => readF2RR bytes (.mul n)
  | .cmp => readF2RR bytes (.cmp n)
  | .call => readF1R bytes (.call n f)
  | .ret => readF0S c bytes (.ret n f)
  | .jmp => readF1R bytes (.jmp n f)
  | .jeq => readF1R bytes (.jeq n f)
  | .jne => readF1R bytes (.jne n f)
  | .jgt => readF1R bytes (.jgt n f)
  | .jlt => readF1R bytes (.jlt n f)
  | .jle => readF1R bytes (.jle n f)
  | .jge => readF1R bytes (.jge n f)

/-- The instruction that the bytes at the head of a list stand for: lookup first, then the operands (R82 to R84). Bytes
after those the instruction reads are not looked at. -/
def decode (c : Config) (bytes : List Byte) : Except DecodeError Instr :=
  match bytes with
  | [] => .error (.missingByte 0)
  | ir :: _ =>
    match selectOp c ir with
    | none => .error (.invalidInstruction ir)
    | some op => readOperands c (irCount ir) (irAlu ir) bytes op

/-! ## The encoder -/

/-- The name of an instruction. -/
def Instr.op : Instr → Op
  | .hlt _ => .hlt
  | .ldi _ _ _ => .ldi
  | .push _ _ => .push
  | .pop _ _ => .pop
  | .prn _ _ => .prn
  | .add _ _ _ => .add
  | .mul _ _ _ => .mul
  | .cmp _ _ _ => .cmp
  | .call _ _ _ => .call
  | .ret _ _ _ => .ret
  | .jmp _ _ _ => .jmp
  | .jeq _ _ _ => .jeq
  | .jne _ _ _ => .jne
  | .jgt _ _ _ => .jgt
  | .jlt _ _ _ => .jlt
  | .jle _ _ _ => .jle
  | .jge _ _ _ => .jge

/-- The operand-count field of an instruction. -/
def Instr.count : Instr → Count
  | .hlt n | .ldi n _ _ | .push n _ | .pop n _ | .prn n _ => n
  | .add n _ _ | .mul n _ _ | .cmp n _ _ => n
  | .call n _ _ | .ret n _ _ | .jmp n _ _ | .jeq n _ _ | .jne n _ _ => n
  | .jgt n _ _ | .jlt n _ _ | .jle n _ _ | .jge n _ _ => n

/-- The ALU flag of an instruction's byte: 0 for data, 1 for ALU, either for special instructions (R61, R62). -/
def Instr.aluFlag : Instr → Bool
  | .hlt _ | .ldi _ _ _ | .push _ _ | .pop _ _ | .prn _ _ => false
  | .add _ _ _ | .mul _ _ _ | .cmp _ _ _ => true
  | .call _ f _ | .ret _ f _ | .jmp _ f _ | .jeq _ f _ | .jne _ f _ => f
  | .jgt _ f _ | .jlt _ f _ | .jle _ f _ | .jge _ f _ => f

/-- The `op` value a table gives an instruction (0 where the table does not name it; a valid table names all). -/
def Config.opcodeOf (c : Config) (o : Op) : BitVec 4 :=
  match c.opcodes.find? fun row => row.1 == o with
  | some row => row.2
  | none => 0

/-- The register-reference byte of a register (R74). -/
def regByte (r : Reg) : Byte := BitVec.ofNat 8 r.val

/-- The operand bytes of an instruction (R65, R74). RET's is the byte its operand read decodes and ignores. -/
def Instr.operandBytes : Instr → List Byte
  | .hlt _ => []
  | .ldi _ r imm => [regByte r, imm]
  | .push _ r | .pop _ r | .prn _ r => [regByte r]
  | .add _ a b | .mul _ a b | .cmp _ a b => [regByte a, regByte b]
  | .ret _ _ none => []
  | .ret _ _ (some r) => [regByte r]
  | .call _ _ r | .jmp _ _ r | .jeq _ _ r | .jne _ _ r => [regByte r]
  | .jgt _ _ r | .jlt _ _ r | .jle _ _ r | .jge _ _ r => [regByte r]

/-- The instruction byte of an instruction (R61, R66). -/
def Instr.head (c : Config) (i : Instr) : Byte :=
  headByte i.count i.aluFlag (i.op.category == .special) (c.opcodeOf i.op)

/-- The bytes that stand for an instruction at increasing addresses: its instruction byte, then the operand bytes its
decode reads. -/
def encode (c : Config) (i : Instr) : List Byte :=
  i.head c :: i.operandBytes

/-! ## The host's numbering of an instruction's bits -/

/-- The first three bytes (the longest instruction reads three) of a table word: byte `k` is bits `8k+7..8k` of the
low `nbits` bits of `w`. -/
def tableBytes (nbits w : Nat) : List Byte :=
  let v := w % 2 ^ nbits
  [BitVec.ofNat 8 v, BitVec.ofNat 8 (v / 256), BitVec.ofNat 8 (v / 65536)]

/-- The instruction the decoder reads from a table word, or none where it refuses it. -/
def decodeTableWord (nbits w : Nat) : Option Instr :=
  match decode Config.default (tableBytes nbits w) with
  | .ok i => some i
  | .error _ => none

end Sys2Proof
end

