-- ==== Sys2Proof/Machine/State.lean ====
section
/-! DEFINITION. The state of the CORE (10_state.md R20 to R35), its reset value (R200), and the reasons a step can stop. -/

namespace Sys2Proof.Machine

/-- The flags register `FL` (R27): three bits, less-than, equal and greater-than. -/
structure Flags where
  l : Bool
  e : Bool
  g : Bool
  deriving DecidableEq, Repr

/-- `FL` = {} (R29). -/
def Flags.empty : Flags := ⟨false, false, false⟩

/-- The run state `STATE` (R30). -/
inductive RunState where
  | running
  | halted
  | faulted
  deriving DecidableEq, Repr

/-- The fault causes of R171. -/
inductive FaultCause where
  /-- code 1, raised by the table lookup -/
  | invalidInstruction
  /-- code 2, raised by the operand read -/
  | invalidRegisterReference
  /-- code 3, defined and never raised (R105) -/
  | unsupportedAluOperation
  /-- code 4, defined and never raised (R131) -/
  | systemFault
  /-- code 5, raised by the operand read, by CALL's return address and by the sequential advance -/
  | addressOutOfRange
  deriving DecidableEq, Repr

/-- The fault record `FAULT` (R31): the cause, the address of the faulting instruction, and the value the cause names
(R171: a byte, or an out-of-range address as a natural). -/
structure FaultRecord where
  cause : FaultCause
  faultPc : Byte
  info : Nat
  deriving DecidableEq, Repr

/-- Memory `M` (R32): the cells that do not hold 0, as (address, byte) pairs with strictly rising addresses. An address
that is not listed reads as 0, which is what every cell holds after reset (R32, R200). -/
abbrev Memory := List Host.Cell

/-- Everything the spec gives the CORE (R35). -/
structure State where
  /-- `x[0]` to `x[7]` (R20); `x[7]` is the stack pointer (R21) -/
  regs : Vector Byte 8
  /-- the program counter (R24) -/
  pc : Byte
  /-- `FL` (R27) -/
  flags : Flags
  /-- `M` (R32) -/
  mem : Memory
  /-- `STATE` (R30) -/
  run : RunState
  /-- `FAULT` (R31) -/
  fault : Option FaultRecord
  /-- `OUT` (R33): the bytes handed out, oldest first -/
  out : List Byte
  deriving DecidableEq, Repr

/-- The state after reset, with `SP_RESET` taken from the configuration (R200, R9). -/
def State.resetWith (c : Config) : State where
  regs := #v[0, 0, 0, 0, 0, 0, 0, c.spReset]
  pc := 0
  flags := Flags.empty
  mem := []
  run := .running
  fault := none
  out := []

/-- The state after reset (R200): `x[7]` is 0xF3, everything else 0, {}, none, empty or Running. No program is loaded. -/
def State.reset : State := State.resetWith Config.default

/-- Why a step answers that there is no next state. A fault of the CORE is not one of these: taking it is a step, to a
state whose `STATE` is Faulted (R176). -/
inductive Fault where
  /-- Raised by `step` when `STATE` is Halted: the machine has no step there (R90, D15). Safe: it is what the spec says. -/
  | alreadyHalted
  /-- Raised by `step` when `STATE` is Faulted: the machine has no step there (R90, R177, D15). Safe: it is what the spec
  says. -/
  | alreadyFaulted
  deriving DecidableEq, Repr

/-- Why an instruction has no meaning in the model. -/
inductive Refusal where
  /-- Raised by `exec` for an instruction that is not modelled yet. Safe. No arm of `exec` raises it: every instruction of
  the table has its meaning. -/
  | notModelled (mnemonic : String)
  deriving DecidableEq, Repr

end Sys2Proof.Machine
end

