-- ==== Sys2Proof/Machine/Ops.lean ====
section
/-! DEFINITION. The shared operations: memory (20_memory.md), address range (R43), taking a fault (R176), and what the
execute stage hands to the PC update and the commit (R85 to R87). -/

namespace Sys2Proof.Machine

/-! ## Memory and the other writes of R12 -/

/-- `MemRead` (R41). Total: an address that is not listed reads as 0. -/
def Memory.read : Memory → Nat → Byte
  | [], _ => 0
  | (k, v) :: m, a => if a = k then v else Memory.read m a

/-- `MemWrite` (R42), keeping the canonical form: writing 0 removes the entry. -/
def Memory.write : Memory → Nat → Byte → Memory
  | [], a, v => if v = 0 then [] else [(a, v)]
  | (k, x) :: m, a, v =>
    if a < k then (if v = 0 then (k, x) :: m else (a, v) :: (k, x) :: m)
    else if a = k then (if v = 0 then m else (a, v) :: m)
    else (k, x) :: Memory.write m a v

/-- The canonical form from address `lo` up: strictly rising addresses below `MEM_SIZE`, and no cell that holds 0. -/
def Memory.wfFrom (lo : Nat) : Memory → Bool
  | [] => true
  | (k, v) :: m => decide (lo ≤ k) && decide (k < memSize) && v != 0 && Memory.wfFrom (k + 1) m

/-- The canonical form of memory: equal memories are equal lists. -/
def Memory.wf (m : Memory) : Bool := m.wfFrom 0

/-- `MemRead(a, 1)`: the byte at an address (R41). -/
def State.readByte (s : State) (a : Byte) : Byte := s.mem.read a.toNat

/-- `MemWrite(a, 1, v)` (R42). -/
def State.writeByte (s : State) (a v : Byte) : State := { s with mem := s.mem.write a.toNat v }

/-- `pc <- target` (R12). -/
def State.setPc (s : State) (target : Byte) : State := { s with pc := target }

/-- `FL <- f`, the whole set replaced (R12). -/
def State.setFlags (s : State) (f : Flags) : State := { s with flags := f }

/-- `Output(v)` (R12, R152): the byte goes to the end of `OUT`. -/
def State.emit (s : State) (v : Byte) : State := { s with out := s.out ++ [v] }

/-- `STATE <- Halted` (R86). -/
def State.halt (s : State) : State := { s with run := .halted }

/-- The 8-bit address that a natural stands for (R43): itself up to 255; above, nothing under the policy `fault`, and
mod 256 under `wrap`. -/
def resolveAddress (c : Config) (addr : Nat) : Option Byte :=
  if addr ≤ 255 then some (BitVec.ofNat 8 addr)
  else match c.outOfRange with
    | .fault => none
    | .wrap => some (BitVec.ofNat 8 addr)

/-! ## Taking a fault -/

/-- The code the spec assigns to a cause (R171). -/
def FaultCause.code : FaultCause → Nat
  | .invalidInstruction => 1
  | .invalidRegisterReference => 2
  | .unsupportedAluOperation => 3
  | .systemFault => 4
  | .addressOutOfRange => 5

/-- Fault entry (R176): `STATE` and `FAULT` are set, with `pc` as the faulting address, and nothing else changes. There
is no return from a fault (R177). -/
def State.raise (s : State) (cause : FaultCause) (info : Nat) : State :=
  { s with run := .faulted, fault := some ⟨cause, s.pc, info⟩ }

/-! ## The execute stage's result, the PC update and the commit -/

/-- What the execute stage of an instruction yields (R85): the state with the instruction's register, flag, memory and
output writes made and `pc` still the instruction's own address, with the outcome; or a fault. -/
inductive Effect where
  /-- no PC override: the PC advances by `1 + n` -/
  | advance (w : State)
  /-- the PC is set to `target` -/
  | override (w : State) (target : Byte)
  /-- the run ends cleanly -/
  | halt (w : State)
  /-- the execute stage raises a fault -/
  | raise (cause : FaultCause) (info : Nat)
  deriving DecidableEq, Repr

/-- The address `pc + 1 + n` of a sequential advance, as a natural (R86). -/
def State.nextPc (s : State) (n : Count) : Nat := s.pc.toNat + 1 + n.toNat

/-- The PC update (R86) and the commit (R87) of an instruction with count `n` that began in `s`: all of its writes, or,
where a stage raises a fault, none of them. -/
def commit (c : Config) (n : Count) (s : State) : Effect → State
  | .advance w =>
    match resolveAddress c (s.nextPc n) with
    | some npc => w.setPc npc
    | none => s.raise .addressOutOfRange (s.nextPc n)
  | .override w target => w.setPc target
  | .halt w => w.halt
  | .raise cause info => s.raise cause info

/-- An instruction's meaning from its execute stage, in the one configuration of the CORE. Every instruction ends in a
next state: taking a fault is one (R176). -/
def finish (n : Count) (s : State) (e : Effect) : Host.Outcome State Fault Refusal :=
  .next (commit Config.default n s e)

end Sys2Proof.Machine
end

