-- ==== Sys2Proof/Machine/Flags.lean ====
section
/-! DEFINITION. The flags register: what CMP computes (R103) and what each conditional branch tests (R123 to R128). -/

namespace Sys2Proof.Machine

/-- `FL` as bits: L = bit 2, G = bit 1, E = bit 0 (R27, D6). No instruction reads `FL` as a number. -/
def Flags.bits (f : Flags) : BitVec 3 :=
  BitVec.ofBool f.l ++ BitVec.ofBool f.g ++ BitVec.ofBool f.e

/-- The four values `FL` can have (R29): {}, {L}, {E} and {G}. -/
def Flags.legal (f : Flags) : Bool :=
  !(f.l && f.e) && !(f.l && f.g) && !(f.e && f.g)

/-- The three-way unsigned comparison of CMP (R103, D7). -/
def compareBytes (x y : Byte) : Flags :=
  if x.toNat < y.toNat then ⟨true, false, false⟩
  else if x = y then ⟨false, true, false⟩
  else ⟨false, false, true⟩

/-- JEQ's test, `FL` = {E} (R123). -/
def Flags.isEqual (f : Flags) : Bool := f == ⟨false, true, false⟩

/-- JNE's test, E not in `FL` (R124). -/
def Flags.notEqual (f : Flags) : Bool := !f.e

/-- JGE's test, G or E in `FL` (R125, C1). -/
def Flags.greaterOrEqual (f : Flags) : Bool := f.g || f.e

/-- JGT's test, `FL` = {G} (R126). -/
def Flags.isGreater (f : Flags) : Bool := f == ⟨false, false, true⟩

/-- JLE's test, L or E in `FL` (R127). -/
def Flags.lessOrEqual (f : Flags) : Bool := f.l || f.e

/-- JLT's test, `FL` = {L} (R128). -/
def Flags.isLess (f : Flags) : Bool := f == ⟨true, false, false⟩

end Sys2Proof.Machine
end

