-- ==== Sys2Proof/Machine/Operands.lean ====
section
/-! DEFINITION. Register operands and the stack: the register file (R12, R20, R21) and the full-descending stack (R49).
The operand formats themselves are read by the decoder (R65, R84: Decode.lean), the bytes by Fetch.lean. -/

namespace Sys2Proof.Machine

/-- `x[r]` (R12). -/
def State.reg (s : State) (r : Reg) : Byte := s.regs[r]

/-- `x[r] <- v` (R12). Every register can be written, `x[7]` included (R20). -/
def State.setReg (s : State) (r : Reg) (v : Byte) : State := { s with regs := s.regs.set r v }

/-- `sp`, which is `x[7]` (R21). -/
def State.sp (s : State) : Byte := s.reg spIndex

/-- The address a push writes: `sp - 1` mod 256 (R49, D8). -/
def State.pushAddress (s : State) : Byte := s.sp - 1

/-- The stack pointer moved down one byte, as a push does before it writes (R49). -/
def State.decrementSp (s : State) : State := s.setReg spIndex s.pushAddress

/-- The stack pointer moved up one byte mod 256, as a pop does after it reads (R49, D8). -/
def State.incrementSp (s : State) : State := s.setReg spIndex (s.sp + 1)

/-- The byte on top of the stack (R49). -/
def State.stackTop (s : State) : Byte := s.readByte s.sp

end Sys2Proof.Machine
end

