-- ==== Sys2Proof/Machine/Alu.lean ====
section
/-! DEFINITION. The ALU instructions ADD, MUL and CMP (41_alu.md): the execute stage of each, and its meaning. -/

namespace Sys2Proof.Machine

/-- ADD (R101): `x[a] <- (x[a] + x[b]) mod 256`. -/
def addStage (a b : Reg) (s : State) : Effect :=
  .advance (s.setReg a (s.reg a + s.reg b))

def execAdd (n : Count) (a b : Reg) (s : State) : Host.Outcome State Fault Refusal :=
  finish n s (addStage a b s)

/-- MUL (R102): `x[a] <- (x[a] * x[b]) mod 256`. -/
def mulStage (a b : Reg) (s : State) : Effect :=
  .advance (s.setReg a (s.reg a * s.reg b))

def execMul (n : Count) (a b : Reg) (s : State) : Host.Outcome State Fault Refusal :=
  finish n s (mulStage a b s)

/-- CMP (R103): all of `FL` is replaced, and no register is written. -/
def cmpStage (a b : Reg) (s : State) : Effect :=
  .advance (s.setFlags (compareBytes (s.reg a) (s.reg b)))

def execCmp (n : Count) (a b : Reg) (s : State) : Host.Outcome State Fault Refusal :=
  finish n s (cmpStage a b s)

end Sys2Proof.Machine
end

