-- ==== Sys2Proof/Machine/Control.lean ====
section
/-! DEFINITION. The special instructions CALL, RET, JMP and the six conditional branches (42_control.md): the execute
stage of each, and its meaning. -/

namespace Sys2Proof.Machine

/-- CALL (R120): the return address is `pc + 2` whatever `n` is, and the target register is read after the push, so
that CALL R7 jumps to the new `sp` (D21). The configuration says what a return address above 255 does. -/
def callStage (c : Config) (r : Reg) (s : State) : Effect :=
  match resolveAddress c (s.pc.toNat + 2) with
  | none => .raise .addressOutOfRange (s.pc.toNat + 2)
  | some ret =>
    let w := (s.writeByte s.pushAddress ret).decrementSp
    .override w (w.reg r)

def execCall (n : Count) (r : Reg) (s : State) : Host.Outcome State Fault Refusal :=
  finish n s (callStage Config.default r s)

/-- RET (R121): the target is the byte on top of the stack, and `sp` moves up. -/
def retStage (s : State) : Effect :=
  .override s.incrementSp s.stackTop

def execRet (n : Count) (s : State) : Host.Outcome State Fault Refusal :=
  finish n s (retStage s)

/-- JMP (R122). -/
def jmpStage (r : Reg) (s : State) : Effect :=
  .override s (s.reg r)

def execJmp (n : Count) (r : Reg) (s : State) : Host.Outcome State Fault Refusal :=
  finish n s (jmpStage r s)

/-- A conditional branch (R119): to `x[r]` if it is taken, otherwise on to the next instruction. -/
def branchStage (taken : Bool) (r : Reg) (s : State) : Effect :=
  if taken then .override s (s.reg r) else .advance s

/-- JEQ (R123). -/
def jeqStage (r : Reg) (s : State) : Effect := branchStage s.flags.isEqual r s

def execJeq (n : Count) (r : Reg) (s : State) : Host.Outcome State Fault Refusal :=
  finish n s (jeqStage r s)

/-- JNE (R124). -/
def jneStage (r : Reg) (s : State) : Effect := branchStage s.flags.notEqual r s

def execJne (n : Count) (r : Reg) (s : State) : Host.Outcome State Fault Refusal :=
  finish n s (jneStage r s)

/-- JGT (R126). -/
def jgtStage (r : Reg) (s : State) : Effect := branchStage s.flags.isGreater r s

def execJgt (n : Count) (r : Reg) (s : State) : Host.Outcome State Fault Refusal :=
  finish n s (jgtStage r s)

/-- JLT (R128). -/
def jltStage (r : Reg) (s : State) : Effect := branchStage s.flags.isLess r s

def execJlt (n : Count) (r : Reg) (s : State) : Host.Outcome State Fault Refusal :=
  finish n s (jltStage r s)

/-- JLE (R127). -/
def jleStage (r : Reg) (s : State) : Effect := branchStage s.flags.lessOrEqual r s

def execJle (n : Count) (r : Reg) (s : State) : Host.Outcome State Fault Refusal :=
  finish n s (jleStage r s)

/-- JGE (R125). -/
def jgeStage (r : Reg) (s : State) : Effect := branchStage s.flags.greaterOrEqual r s

def execJge (n : Count) (r : Reg) (s : State) : Host.Outcome State Fault Refusal :=
  finish n s (jgeStage r s)

end Sys2Proof.Machine
end

