-- ==== Sys2Proof/Machine/Data.lean ====
section
/-! DEFINITION. The data operations LDI, PRN, PUSH, POP and HLT (43_data.md): the execute stage of each, and its
meaning. -/

namespace Sys2Proof.Machine

/-- LDI (R151): `x[r] <- imm`. -/
def ldiStage (r : Reg) (imm : Byte) (s : State) : Effect :=
  .advance (s.setReg r imm)

def execLdi (n : Count) (r : Reg) (imm : Byte) (s : State) : Host.Outcome State Fault Refusal :=
  finish n s (ldiStage r imm s)

/-- PRN (R152): `OUT` gains `x[r]`. -/
def prnStage (r : Reg) (s : State) : Effect :=
  .advance (s.emit (s.reg r))

def execPrn (n : Count) (r : Reg) (s : State) : Host.Outcome State Fault Refusal :=
  finish n s (prnStage r s)

/-- PUSH (R153): `sp` is decremented first and the named register read after that, so that PUSH R7 stores the new `sp`
(D21). -/
def pushStage (r : Reg) (s : State) : Effect :=
  let w := s.decrementSp
  .advance (w.writeByte w.sp (w.reg r))

def execPush (n : Count) (r : Reg) (s : State) : Host.Outcome State Fault Refusal :=
  finish n s (pushStage r s)

/-- POP (R154): the named register is written first and `sp` incremented after that, so that POP R7 leaves the popped
byte plus 1 (D21). -/
def popStage (r : Reg) (s : State) : Effect :=
  .advance (s.setReg r s.stackTop).incrementSp

def execPop (n : Count) (r : Reg) (s : State) : Host.Outcome State Fault Refusal :=
  finish n s (popStage r s)

/-- HLT (R155). -/
def hltStage (s : State) : Effect := .halt s

def execHlt (n : Count) (s : State) : Host.Outcome State Fault Refusal :=
  finish n s (hltStage s)

end Sys2Proof.Machine
end

