-- ==== Sys2Proof/Machine/Dispatch.lean ====
section
/-! DEFINITION. One arm per instruction: each calls the instruction's meaning. -/

namespace Sys2Proof.Machine

def exec (i : Instr) (s : State) : Host.Outcome State Fault Refusal :=
  match i with
  | .hlt n => Sys2Proof.Machine.execHlt n s
  | .ldi n r imm => Sys2Proof.Machine.execLdi n r imm s
  | .push n r => Sys2Proof.Machine.execPush n r s
  | .pop n r => Sys2Proof.Machine.execPop n r s
  | .prn n r => Sys2Proof.Machine.execPrn n r s
  | .add n a b => Sys2Proof.Machine.execAdd n a b s
  | .mul n a b => Sys2Proof.Machine.execMul n a b s
  | .cmp n a b => Sys2Proof.Machine.execCmp n a b s
  | .call n _ r => Sys2Proof.Machine.execCall n r s
  | .ret n _ _ => Sys2Proof.Machine.execRet n s
  | .jmp n _ r => Sys2Proof.Machine.execJmp n r s
  | .jeq n _ r => Sys2Proof.Machine.execJeq n r s
  | .jne n _ r => Sys2Proof.Machine.execJne n r s
  | .jgt n _ r => Sys2Proof.Machine.execJgt n r s
  | .jlt n _ r => Sys2Proof.Machine.execJlt n r s
  | .jle n _ r => Sys2Proof.Machine.execJle n r s
  | .jge n _ r => Sys2Proof.Machine.execJge n r s

end Sys2Proof.Machine
end

