-- ==== Sys2Proof/Machine/Fetch.lean ====
section
/-! DEFINITION. Fetch and decode at the program counter (R81 to R84), and the fault a failed decode takes. -/

namespace Sys2Proof.Machine

/-- The bytes an instruction at `pc` may read, at `pc`, `pc + 1` and `pc + 2`, as far as these addresses exist (R60,
R84, R43). All are read before anything is written (R84, R55). -/
def fetchBytes (c : Config) (s : State) : List Byte :=
  [0, 1, 2].filterMap fun k => (resolveAddress c (s.pc.toNat + k)).map s.readByte

/-- The instruction at `pc`, or why there is none. -/
def fetch (c : Config) (s : State) : Except DecodeError Instr :=
  decode c (fetchBytes c s)

/-- The fault of a failed decode (R83, R84, R171): the cause and the `info` it records. -/
def State.raiseDecode (s : State) : DecodeError → State
  | .invalidInstruction ir => s.raise .invalidInstruction ir.toNat
  | .invalidRegisterReference b => s.raise .invalidRegisterReference b.toNat
  | .missingByte k => s.raise .addressOutOfRange (s.pc.toNat + k)

/-- `M[a] <- bytes[0], M[a+1] <- bytes[1], …`, as the loader places an image (R203). -/
def Memory.place (m : Memory) (a : Nat) : List Byte → Memory
  | [] => m
  | b :: bytes => Memory.place (m.write a b) (a + 1) bytes

/-- The state in which the next step fetches at an address where three bytes, the longest instruction, exist: `STATE` is
Running and `pc` is kept, or 0 where `pc + 2` is above 255. Nothing changes in a Running state with `pc` ≤ 253. DESIGN
CHOICE, safe: assumption log 8. -/
def State.readyToFetch (s : State) : State :=
  { s with
    pc := if s.pc.toNat ≤ 253 then s.pc else 0
    run := .running
    fault := if s.run = .running then s.fault else none }

end Sys2Proof.Machine
end

