-- ==== Sys2Proof/Machine/Step.lean ====
section
/-! DEFINITION. One step of the CORE (R80, R88), and the host's way to place an instruction under the program counter. -/

namespace Sys2Proof.Machine

/-- One step (R88): defined only while `STATE` is Running (R80, R90). It fetches and decodes at `pc`; a failed decode
takes its fault, and a decoded instruction is executed. -/
def step (s : State) : Host.Outcome State Fault Refusal :=
  match s.run with
  | .halted => .fault .alreadyHalted
  | .faulted => .fault .alreadyFaulted
  | .running =>
    match fetch Config.default s with
    | .error e => .next (s.raiseDecode e)
    | .ok i => exec i s

/-- `s` with the bytes of a table word stored where the next step fetches: at `pc`, or at 0 where the longest
instruction would not fit below 256, in a Running machine. It stands for the load of R203. -/
def State.withFetchWord (s : State) (nbits w : Nat) : State :=
  let r := s.readyToFetch
  { r with mem := r.mem.place r.pc.toNat (tableBytes nbits w) }

end Sys2Proof.Machine
end

