-- ==== Sys2Proof/Machine/Boot.lean ====
section
/-! DEFINITION. Program load (R203, R204): what the out-of-scope loader leaves in memory before the first step. -/

namespace Sys2Proof.Machine

/-- An image the host accepts (R203, D16): at most 256 words, each at most 255. -/
def imageFits (image : List Nat) : Bool :=
  decide (image.length ≤ memSize) && image.all fun w => decide (w ≤ 255)

/-- Reset, then load, in a given configuration (R204): `none` where the host refuses the image and no run starts. -/
def bootWith (c : Config) (image : List Nat) : Option State :=
  if imageFits image then
    some { State.resetWith c with mem := Memory.place [] 0 (image.map (BitVec.ofNat 8)) }
  else none

/-- Reset, then load, in the one configuration of the CORE. -/
def boot (image : List Nat) : Option State := bootWith Config.default image

end Sys2Proof.Machine
end

