-- ==== Sys2Proof/Machine/Block.lean ====
section
/-! DEFINITION. The block's two inputs at transaction level (R36): a step and a reset. The memory ports are `readByte` and
`writeByte` (Ops.lean), and the output port and the status are `OUT` and `status` (HostView.lean). -/

namespace Sys2Proof.Machine

/-- An input transaction of the block (R36). -/
inductive BlockInput where
  /-- executes one instruction if `STATE` is Running -/
  | step
  /-- re-creates the state and loads an image (R200, R201, R203) -/
  | reset (image : List Nat)
  deriving DecidableEq, Repr

/-- The state after an input. A step of a stopped machine changes nothing (R90). A reset keeps nothing of the old state
(R201), and there is none after it where the host refuses the image (R203). -/
def State.accept (s : State) : BlockInput → Option State
  | .step =>
    match step s with
    | .next t => some t
    | .fault _ => some s
    | .refused _ => some s
  | .reset image => boot image

end Sys2Proof.Machine
end

