-- ==== Sys2Proof/Machine/HostView.lean ====
section
/-! DEFINITION. What the host sees of the machine: the status output (R36), the fault code (R171), the end of a run
(R93) and the text it makes of the output bytes (R152, D14). -/

namespace Sys2Proof.Machine

/-- The status output (R36): `STATE` and `FAULT`. -/
def State.status (s : State) : RunState × Option FaultRecord := (s.run, s.fault)

/-- The fault code of the status output (R171): 0 while there is no fault. -/
def State.faultCode (s : State) : Nat :=
  match s.fault with
  | none => 0
  | some record => record.cause.code

/-- The observable result of a run (R93). -/
inductive RunEnd where
  /-- on Halted: the output, the final registers, the flags, the address of the HLT, and memory -/
  | halted (out : List Byte) (regs : Vector Byte 8) (flags : Flags) (pc : Byte) (mem : Memory)
  /-- on Faulted: the output before the faulting instruction, and the fault record; nothing else may be read -/
  | faulted (out : List Byte) (record : Option FaultRecord)
  deriving DecidableEq, Repr

/-- What the end of a run shows (R93), or `none` while the machine is Running. -/
def State.runEnd (s : State) : Option RunEnd :=
  match s.run with
  | .running => none
  | .halted => some (.halted s.out s.regs s.flags s.pc s.mem)
  | .faulted => some (.faulted s.out s.fault)

/-- One output byte as the host renders it (R152, D14): unsigned decimal with no leading zeros, then a newline. -/
def renderByte (v : Byte) : List Char :=
  let n := v.toNat
  let digit (d : Nat) : Char := Char.ofNat (48 + d % 10)
  let digits :=
    if n < 10 then [digit n]
    else if n < 100 then [digit (n / 10), digit n]
    else [digit (n / 100), digit (n / 10), digit n]
  digits ++ ['\n']

/-- The text the host makes of `OUT` (R33, R152). -/
def State.outputText (s : State) : List Char := s.out.flatMap renderByte

end Sys2Proof.Machine
end

