-- ==== Sys2Proof/Machine/Parameters.lean ====
section
/-! DEFINITION. The step at any setting of the parameters (R8): the spec's one function of the state (R88), with
`STRICT_DECODE`, `RET_DECODES_OPERAND`, `OUT_OF_RANGE_POLICY` and `OPCODE_ASSIGN` taken from a `Config`. At
`Config.default` it is `exec` and `step` (Laws/Step.lean). -/

namespace Sys2Proof.Machine

/-- The execute stage of an instruction (R85). -/
def stage (c : Config) (i : Instr) (s : State) : Effect :=
  match i with
  | .hlt _ => hltStage s
  | .ldi _ r imm => ldiStage r imm s
  | .push _ r => pushStage r s
  | .pop _ r => popStage r s
  | .prn _ r => prnStage r s
  | .add _ a b => addStage a b s
  | .mul _ a b => mulStage a b s
  | .cmp _ a b => cmpStage a b s
  | .call _ _ r => callStage c r s
  | .ret _ _ _ => retStage s
  | .jmp _ _ r => jmpStage r s
  | .jeq _ _ r => jeqStage r s
  | .jne _ _ r => jneStage r s
  | .jgt _ _ r => jgtStage r s
  | .jlt _ _ r => jltStage r s
  | .jle _ _ r => jleStage r s
  | .jge _ _ r => jgeStage r s

/-- An instruction's effect in a configuration: execute, PC update, commit (R85 to R87). -/
def execWith (c : Config) (i : Instr) (s : State) : State :=
  commit c i.count s (stage c i s)

/-- One step in a configuration (R88): fetch, decode, execute, update, commit; no step in a terminal state (R90). -/
def stepWith (c : Config) (s : State) : Host.Outcome State Fault Refusal :=
  match s.run with
  | .halted => .fault .alreadyHalted
  | .faulted => .fault .alreadyFaulted
  | .running =>
    match fetch c s with
    | .error e => .next (s.raiseDecode e)
    | .ok i => .next (execWith c i s)

end Sys2Proof.Machine
end

