-- ==== Sys2Proof/WellFormed.lean ====
section
/-! DEFINITION. Which instruction terms a machine's bytes can stand for. Register indices need no check: the type of an
operand has exactly the eight indices that a legal register-reference byte gives (R63). -/

namespace Sys2Proof

/-- Under `STRICT_DECODE` only the canonical instruction byte is an instruction: the canonical count, and the ALU flag
set only in the ALU category (R66, R67). Otherwise every count and either ALU flag will do. -/
def Instr.headWellFormed (c : Config) (i : Instr) : Bool :=
  !c.strictDecode || (i.count == i.op.format.count && i.aluFlag == (i.op.category == .alu))

/-- RET holds an ignored index exactly where `RET_DECODES_OPERAND` has its operand byte decoded (R65, D9). -/
def Instr.retWellFormed (c : Config) : Instr → Bool
  | .ret _ _ ignored => ignored.isSome == c.retDecodesOperand
  | .hlt _ | .ldi _ _ _ | .push _ _ | .pop _ _ | .prn _ _ => true
  | .add _ _ _ | .mul _ _ _ | .cmp _ _ _ => true
  | .call _ _ _ | .jmp _ _ _ | .jeq _ _ _ | .jne _ _ _ => true
  | .jgt _ _ _ | .jlt _ _ _ | .jle _ _ _ | .jge _ _ _ => true

/-- An instruction term is well formed in a configuration: both checks pass. -/
def Instr.wellFormed (c : Config) (i : Instr) : Bool :=
  i.headWellFormed c && i.retWellFormed c

end Sys2Proof
end

