-- ==== Sys2Proof/Safety.lean ====
section
/-! DEFINITION. What counts as a safe run and as a legal state, and the terms in which claims about the machine are
stated. After a fault the spec lets a claim name only `OUT`, `STATE` and `FAULT` (R93), so `TakesFault` names no more. -/

namespace Sys2Proof.Machine

/-! ## Safe runs -/

/-- The states a run can be in: an accepted image loaded after reset (R203, R204), then any number of steps (R92). -/
inductive Reachable : State → Prop where
  | boot {image : List Nat} {s : State} : boot image = some s → Reachable s
  | step {s t : State} : Reachable s → step s = .next t → Reachable t

/-- A run from `s` is safe when it never takes a fault (R170: every fault ends the run). It may halt or go on for ever
(R92). -/
def SafeFrom (s : State) : Prop :=
  ∀ k t, Host.Core.run core k s = .next t → t.run ≠ .faulted

/-! ## Legal states -/

/-- The fault records the machine can hold (R171): the two causes that no instruction raises are not among them, a
register-reference byte that faults is above 0x07, and an out-of-range address is 256 to 258. -/
def FaultRecord.legal (f : FaultRecord) : Bool :=
  match f.cause with
  | .invalidInstruction => decide (f.info ≤ 255)
  | .invalidRegisterReference => decide (8 ≤ f.info) && decide (f.info ≤ 255)
  | .unsupportedAluOperation => false
  | .systemFault => false
  | .addressOutOfRange => decide (256 ≤ f.info) && decide (f.info ≤ 258)

/-- The invariant of the machine: memory is in its canonical form, `FL` is {}, {L}, {E} or {G} (R29), there is a fault
record exactly in Faulted (R31), and it is one of those of R171. -/
def State.legal (s : State) : Bool :=
  s.mem.wf && s.flags.legal && ((s.run == .faulted) == s.fault.isSome) && s.fault.all FaultRecord.legal

/-! ## Terms for claims -/

/-- The bytes `bytes` stand in memory from `pc` on, none of them beyond 255. -/
def State.bytesAt (s : State) (bytes : List Byte) : Prop :=
  ∀ k (h : k < bytes.length), s.pc.toNat + k ≤ 255 ∧ s.mem.read (s.pc.toNat + k) = bytes[k]

/-- The instruction byte under the program counter (R81). -/
def State.ir (s : State) : Byte := s.readByte s.pc

/-- The outcome of taking a fault in `s` with a cause and an `info` (R176), as far as a claim may name it (R93): `STATE`
is Faulted, `FAULT` names the cause, the address of the instruction and the info, and `OUT` is as it was. -/
def TakesFault (o : Host.Outcome State Fault Refusal) (s : State) (cause : FaultCause) (info : Nat) : Prop :=
  ∃ t, o = .next t ∧ t.run = .faulted ∧ t.fault = some ⟨cause, s.pc, info⟩ ∧ t.out = s.out

/-- Every register but those of a list is unchanged. -/
def State.keepsRegsExcept (s t : State) (rs : List Reg) : Prop := ∀ q, q ∉ rs → t.reg q = s.reg q

/-- Every byte of memory is unchanged. -/
def State.keepsMemory (s t : State) : Prop := ∀ a : Byte, t.readByte a = s.readByte a

/-- Every byte of memory but the one at an address is unchanged. -/
def State.keepsMemoryExcept (s t : State) (a : Byte) : Prop := ∀ b : Byte, b ≠ a → t.readByte b = s.readByte b

/-- `STATE` and `FAULT` are unchanged. -/
def State.keepsStatus (s t : State) : Prop := t.run = s.run ∧ t.fault = s.fault

/-- What a completed instruction leaves as it was besides registers, flags and `pc`: memory, `OUT`, `STATE`, `FAULT`. -/
def State.keepsRest (s t : State) : Prop := s.keepsMemory t ∧ t.out = s.out ∧ s.keepsStatus t

/-- A conditional branch jumps exactly when `p` holds: to `x[r]`, and otherwise on to `pc + 1 + m` where that address
exists; nothing but `pc` changes. -/
def JumpsIff (i : Instr) (s : State) (r : Reg) (p : Prop) : Prop :=
  (p → exec i s = .next (s.setPc (s.reg r))) ∧
  (¬p → s.pc.toNat + 1 + i.count.toNat ≤ 255 → ∃ q : Byte, q.toNat = s.pc.toNat + 1 + i.count.toNat ∧ exec i s = .next (s.setPc q))

/-- One row of the table of R129, columns in its order: when JEQ, JNE, JGE, JGT, JLE and JLT jump in a state. -/
def BranchRow (s : State) (m : Count) (f : Bool) (r : Reg) (eq ne ge gt le lt : Prop) : Prop :=
  JumpsIff (.jeq m f r) s r eq ∧ JumpsIff (.jne m f r) s r ne ∧ JumpsIff (.jge m f r) s r ge ∧
  JumpsIff (.jgt m f r) s r gt ∧ JumpsIff (.jle m f r) s r le ∧ JumpsIff (.jlt m f r) s r lt

/-- The operand faults of an instruction with a canonical byte and a format (R84, R172): operand 1's address, then its
register bits, then operand 2's address, then, where it is a register reference, its bits. -/
def OperandFaults (canonical : Byte) (fmt : Format) : Prop :=
  ∀ s : State, s.run = .running → s.ir = canonical → fmt ≠ .f0 →
    (s.pc.toNat = 255 → TakesFault (step s) s .addressOutOfRange 256) ∧
    (s.pc.toNat ≤ 254 → 8 ≤ (s.mem.read (s.pc.toNat + 1)).toNat →
      TakesFault (step s) s .invalidRegisterReference (s.mem.read (s.pc.toNat + 1)).toNat) ∧
    ((fmt = .f2rr ∨ fmt = .f2ri) → s.pc.toNat = 254 → (s.mem.read (s.pc.toNat + 1)).toNat < 8 →
      TakesFault (step s) s .addressOutOfRange 256) ∧
    (fmt = .f2rr → s.pc.toNat ≤ 253 → (s.mem.read (s.pc.toNat + 1)).toNat < 8 →
      8 ≤ (s.mem.read (s.pc.toNat + 2)).toNat →
      TakesFault (step s) s .invalidRegisterReference (s.mem.read (s.pc.toNat + 2)).toNat)

/-- What a rule of R123 to R128 says of one conditional branch: its canonical byte, its operand faults, when it is taken,
and the three ways it can end. `mk` is the instruction's constructor. -/
def BranchRule (mk : Count → Bool → Reg → Instr) (canonical : Byte) (taken : Flags → Prop) : Prop :=
  (∀ r : Reg, decode Config.default [canonical, regByte r] = .ok (mk 1 false r)) ∧
  OperandFaults canonical .f1r ∧
  ∀ (s : State) (n : Count) (f : Bool) (r : Reg),
    (taken s.flags →
      ∃ t, exec (mk n f r) s = .next t ∧ t.pc = s.reg r ∧
        s.keepsRegsExcept t [] ∧ t.flags = s.flags ∧ s.keepsRest t) ∧
    (¬taken s.flags → s.pc.toNat + 1 + n.toNat ≤ 255 →
      ∃ t, exec (mk n f r) s = .next t ∧ t.pc.toNat = s.pc.toNat + 1 + n.toNat ∧
        s.keepsRegsExcept t [] ∧ t.flags = s.flags ∧ s.keepsRest t) ∧
    (¬taken s.flags → 255 < s.pc.toNat + 1 + n.toNat →
      TakesFault (exec (mk n f r) s) s .addressOutOfRange (s.pc.toNat + 1 + n.toNat))

end Sys2Proof.Machine

namespace Sys2Proof

/-- The registers an instruction writes (R22). -/
def Instr.writtenRegs : Instr → List Reg
  | .add _ a _ | .mul _ a _ => [a]
  | .ldi _ r _ => [r]
  | .pop _ r => [r, spIndex]
  | .push _ _ | .call _ _ _ | .ret _ _ _ => [spIndex]
  | .hlt _ | .prn _ _ | .cmp _ _ _ | .jmp _ _ _ => []
  | .jeq _ _ _ | .jne _ _ _ | .jgt _ _ _ | .jlt _ _ _ | .jle _ _ _ | .jge _ _ _ => []

/-- The address an instruction stores to in a state, for the two that store (R40: the PUSH write and the CALL write). -/
def Instr.storeAddress (i : Instr) (s : Machine.State) : Option Byte :=
  match i.op with
  | .push | .call => some s.pushAddress
  | .hlt | .ldi | .pop | .prn | .add | .mul | .cmp | .ret => none
  | .jmp | .jeq | .jne | .jgt | .jlt | .jle | .jge => none

/-- The six conditional branches (R28). -/
def Op.isConditionalBranch (o : Op) : Bool :=
  o ∈ [Op.jeq, .jne, .jgt, .jlt, .jle, .jge]

/-- The truth table of R129: whether a conditional branch is taken with a value of `FL`. Other instructions are no
conditional branches, so the answer for them says nothing. -/
def Op.takenOn (f : Machine.Flags) : Op → Bool
  | .jeq => f == ⟨false, true, false⟩
  | .jne => !f.e
  | .jge => f.g || f.e
  | .jgt => f == ⟨false, false, true⟩
  | .jle => f.l || f.e
  | .jlt => f == ⟨true, false, false⟩
  | .hlt | .ldi | .push | .pop | .prn | .add | .mul | .cmp | .call | .ret | .jmp => false

/-- Whether the execute stage of an instruction yields `Advance` with a value of `FL` (R85, R119): every ALU and data
instruction but HLT, and a conditional branch that is not taken. -/
def Instr.advances (i : Instr) (f : Machine.Flags) : Bool :=
  match i.op with
  | .ldi | .push | .pop | .prn | .add | .mul | .cmp => true
  | .hlt | .call | .ret | .jmp => false
  | .jeq | .jne | .jgt | .jlt | .jle | .jge => !(i.op.takenOn f)

end Sys2Proof
end

