-- ==== Sys2Proof/Certificates/Slice0/Obligations.lean ====
section
/-! DEFINITION. The statements for the provers. Each docstring names the rule of spec/ it formalises. Claims about a run
that ends in Faulted name only `OUT`, `STATE` and `FAULT`, as R93 asks; `StepKeepsLegal` alone says more of such a state, as
the model's own invariant. -/

open Sys2Proof Sys2Proof.Machine

/-! ## Reset, load and the machine's invariant -/

/-- R203 and R200: an accepted image gives the reset state with the image at address 0 and 0 above it; an image that is
too long or holds a word above 255 is refused. -/
def Obligations.BootIsResetWithTheImageAtZero : Prop :=
  (∀ image : List Nat, image.length ≤ 256 → (∀ w ∈ image, w ≤ 255) →
    ∃ s, boot image = some s ∧ (∀ r : Reg, s.reg r = if r = 7 then 0xF3 else 0) ∧ s.pc = 0 ∧
      s.flags = { l := false, e := false, g := false } ∧ s.run = .running ∧ s.fault = none ∧ s.out = [] ∧
      ∀ k, k < 256 → (s.mem.read k).toNat = image.getD k 0) ∧
  (∀ image : List Nat, (256 < image.length ∨ ∃ w ∈ image, 255 < w) → boot image = none) ∧
  boot [] = some State.reset

/-- The invariant holds at reset (R200), and of every image loaded after reset, whatever the parameters: `FL` is a legal
value (R29) and there is no fault record (R31). That memory is in canonical form is the model's own choice, assumption
log 11 (DESIGN CHOICE), and no rule of the spec. -/
def Obligations.ResetAndBootedStatesAreLegal : Prop :=
  State.reset.legal = true ∧ ∀ (c : Config) (image : List Nat) (s : State), bootWith c image = some s → s.legal = true

/-- Every step keeps the invariant: `FL` stays one of {}, {L}, {E}, {G} (R29), there is a fault record, one of those of
R171, exactly in Faulted (R31), and memory stays canonical, which is the model's own form (assumption log 11, DESIGN
CHOICE). Where the step leads to Faulted, what this says of memory and `FL` rests on the all-or-nothing commit of R87, the
spec's decision D11, as the model reads it (assumption log 6, DEDUCED): R93 keeps both out of claims about a run that
ends in Faulted, so there it is the model's invariant and no claim about the hardware. -/
def Obligations.StepKeepsLegal : Prop :=
  ∀ s t : State, s.legal = true → step s = .next t → t.legal = true

/-- Two memories in canonical form that read the same at every address of the machine are the same data. The form is the
model's choice, assumption log 11. -/
def Obligations.CanonicalMemoriesAreDeterminedByTheirReads : Prop :=
  ∀ m m' : Memory, m.wf = true → m'.wf = true → (∀ a : Byte, m.read a.toNat = m'.read a.toNat) → m = m'

/-! ## Encoding -/

/-- R74: the canonical bytes of every assembly form stand for their instruction, for every register and immediate. -/
def Obligations.CanonicalWordsDecode : Prop :=
  (∀ (a b r : Reg) (imm : Byte),
    decode Config.default [0xA0, regByte a, regByte b] = .ok (.add 2 a b) ∧
    decode Config.default [0xA2, regByte a, regByte b] = .ok (.mul 2 a b) ∧
    decode Config.default [0xA7, regByte a, regByte b] = .ok (.cmp 2 a b) ∧
    decode Config.default [0x82, regByte r, imm] = .ok (.ldi 2 r imm) ∧
    decode Config.default [0x47, regByte r] = .ok (.prn 1 r) ∧
    decode Config.default [0x45, regByte r] = .ok (.push 1 r) ∧
    decode Config.default [0x46, regByte r] = .ok (.pop 1 r)) ∧
  (∀ r : Reg,
    decode Config.default [0x50, regByte r] = .ok (.call 1 false r) ∧
    decode Config.default [0x54, regByte r] = .ok (.jmp 1 false r) ∧
    decode Config.default [0x55, regByte r] = .ok (.jeq 1 false r) ∧
    decode Config.default [0x56, regByte r] = .ok (.jne 1 false r) ∧
    decode Config.default [0x57, regByte r] = .ok (.jgt 1 false r) ∧
    decode Config.default [0x58, regByte r] = .ok (.jlt 1 false r) ∧
    decode Config.default [0x59, regByte r] = .ok (.jle 1 false r) ∧
    decode Config.default [0x5A, regByte r] = .ok (.jge 1 false r) ∧
    decode Config.default [0x11, regByte r] = .ok (.ret 0 false (some r))) ∧
  decode Config.default [0x01] = .ok (.hlt 0) ∧
  (∀ r : Reg, (regByte r).toNat = r.val)

/-- Decoding the bytes the encoder writes for a well-formed instruction gives it back, whatever follows them, in every
configuration with a valid opcode table: no bit of an encoding is dropped. That a term keeps the count, the ALU flag and
RET's ignored index is the model's choice, assumption log 10. -/
def Obligations.DecodeInvertsEncode : Prop :=
  ∀ (c : Config) (i : Instr) (rest : List Byte), c.Valid → i.wellFormed c = true →
    decode c (encode c i ++ rest) = .ok i

/-- The other direction: bytes that decode begin with the encoding of the instruction they stand for, and it is well
formed. So no two byte sequences of an instruction's length stand for the same term (assumption log 10). -/
def Obligations.DecodedBytesAreTheEncoding : Prop :=
  ∀ (c : Config) (bytes : List Byte) (i : Instr), c.Valid → decode c bytes = .ok i →
    i.wellFormed c = true ∧ encode c i <+: bytes

/-- R67: without `STRICT_DECODE` an instruction byte selects by match and mask on category and `op`; with it only the
canonical byte selects. For every valid opcode table. -/
def Obligations.LookupIsByMatchAndMask : Prop :=
  (∀ (c : Config) (ir : Byte) (o : Op), c.Valid → c.strictDecode = false →
    (selectOp c ir = some o ↔
      match o.category with
      | .data => ir &&& 0x3F = (c.opcodeOf o).setWidth 8
      | .alu => ir &&& 0x3F = 0x20 ||| (c.opcodeOf o).setWidth 8
      | .special => ir &&& 0x1F = 0x10 ||| (c.opcodeOf o).setWidth 8)) ∧
  (∀ (c : Config) (ir : Byte) (o : Op), c.Valid → c.strictDecode = true →
    (selectOp c ir = some o ↔ ir = canonicalByte (o, c.opcodeOf o))) ∧
  (∀ (c : Config) (ir : Byte) (rest : List Byte), selectOp c ir = none →
    decode c (ir :: rest) = .error (.invalidInstruction ir))

/-! ## The step -/

/-- When the bytes at the program counter decode to an instruction, a step of a Running machine is `exec` of that
instruction at the same state: nothing is added around it (R80, R88). -/
def Obligations.StepRunsTheDecodedInstruction : Prop :=
  ∀ (s : State) (bytes : List Byte) (i : Instr), s.run = .running → s.bytesAt bytes →
    decode Config.default bytes = .ok i → i.wellFormed Config.default = true ∧ step s = exec i s

/-- R90: the machine has a step exactly while it is Running, and of the block's two inputs (R36) only a reset leaves
Halted or Faulted, to Running. R90 says only that there is no step in those two states. That `step` answers
`alreadyHalted` or `alreadyFaulted` there, however many steps are asked for, and that the input `step` then changes
nothing, is the model's choice, assumption log 7 (DESIGN CHOICE). -/
def Obligations.StepExistsExactlyWhileRunning : Prop :=
  (∀ s : State, (∃ t, step s = .next t) ↔ s.run = .running) ∧
  (∀ (s : State) (k : Nat), s.run = .halted → Host.Core.run core (k + 1) s = .fault .alreadyHalted) ∧
  (∀ (s : State) (k : Nat), s.run = .faulted → Host.Core.run core (k + 1) s = .fault .alreadyFaulted) ∧
  (∀ s : State, s.run ≠ .running → s.accept .step = some s) ∧
  (∀ (s t : State) (image : List Nat), s.accept (.reset image) = some t → t.run = .running)

/-- R89: from Running an `Advance` or an `Override` leads to Running, `Halt`, which is HLT's, to Halted, and any fault to
Faulted with a record of the instruction's address; no step starts anywhere else. -/
def Obligations.RunStateTransitions : Prop :=
  (∀ s t : State, step s = .next t →
    s.run = .running ∧
    (t.run = .halted ↔ ∃ n, fetch Config.default s = .ok (.hlt n)) ∧
    (t.run = .faulted → ∃ cause info, t.fault = some ⟨cause, s.pc, info⟩) ∧
    (t.run ≠ .faulted → t.fault = s.fault) ∧
    (s.fault = none → (t.run = .faulted ↔ t.fault.isSome = true))) ∧
  (∀ (s t : State) (e : DecodeError), step s = .next t → fetch Config.default s = .error e → t.run = .faulted) ∧
  ∀ (s t : State) (i : Instr), step s = .next t → fetch Config.default s = .ok i →
    match stage Config.default i s with
    | .advance _ => t.run = if s.pc.toNat + 1 + i.count.toNat ≤ 255 then .running else .faulted
    | .override _ _ => t.run = .running
    | .halt _ => t.run = .halted
    | .raise _ _ => t.run = .faulted

/-- The host's placing of a table word: the very next step runs the instruction the decoder reads from it. Where the word
is placed is the model's choice, assumption log 8. -/
def Obligations.PlacedWordIsRunNext : Prop :=
  ∀ (s : State) (nbits w : Nat) (i : Instr), s.mem.wf = true → decodeTableWord nbits w = some i →
    step (s.withFetchWord nbits w) = exec i (s.withFetchWord nbits w)

/-! ## Faults -/

/-- R68: every (category, `op`) pair that the table does not list raises `InvalidInstruction(IR)` at the instruction's
address. -/
def Obligations.IllegalEncodingsRaiseInvalidInstruction : Prop :=
  ∀ s : State, s.run = .running →
    (irSpecial s.ir = false ∧ irAlu s.ir = false ∧ (irOp s.ir).toNat ∈ [0, 3, 4, 8, 9, 10, 11, 12, 13, 14, 15] ∨
     irSpecial s.ir = false ∧ irAlu s.ir = true ∧ (irOp s.ir).toNat ∈ [1, 3, 4, 5, 6, 8, 9, 10, 11, 12, 13, 14, 15] ∨
     irSpecial s.ir = true ∧ (irOp s.ir).toNat ∈ [2, 3, 11, 12, 13, 14, 15]) →
    TakesFault (step s) s .invalidInstruction s.ir.toNat

/-- R105 of the ALU and R131 of the special unit: an unknown `op` is stopped at the lookup with `InvalidInstruction(IR)`,
with the address of the instruction, not advanced, as the recorded `fault_pc`, and no step ever takes
`UnsupportedAluOperation` or `SystemFault`. -/
def Obligations.InternalFaultsAreUnreachable : Prop :=
  (∀ s : State, s.run = .running → irSpecial s.ir = false → irAlu s.ir = true →
    (irOp s.ir).toNat ∉ [0, 2, 7] → TakesFault (step s) s .invalidInstruction s.ir.toNat) ∧
  (∀ s : State, s.run = .running → irSpecial s.ir = true →
    (irOp s.ir).toNat ∈ [2, 3, 11, 12, 13, 14, 15] → TakesFault (step s) s .invalidInstruction s.ir.toNat) ∧
  ∀ (s t : State) (f : FaultRecord), step s = .next t → t.run = .faulted → t.fault = some f →
    f.cause ≠ .unsupportedAluOperation ∧ f.cause ≠ .systemFault

/-- R173: the fault reported is the first one in stage order. Each clause assumes that no earlier stage raises: lookup;
operand 1, address then register bits; operand 2, address then register bits; CALL's return address; the advance. -/
def Obligations.FirstFaultInStageOrder : Prop :=
  (∀ s : State, s.run = .running → selectOp Config.default s.ir = none →
    TakesFault (step s) s .invalidInstruction s.ir.toNat) ∧
  (∀ (s : State) (o : Op), s.run = .running → selectOp Config.default s.ir = some o → o.format ≠ .f0 →
    (s.pc.toNat = 255 → TakesFault (step s) s .addressOutOfRange 256) ∧
    (s.pc.toNat ≤ 254 → 8 ≤ (s.mem.read (s.pc.toNat + 1)).toNat →
      TakesFault (step s) s .invalidRegisterReference (s.mem.read (s.pc.toNat + 1)).toNat) ∧
    ((o.format = .f2rr ∨ o.format = .f2ri) → s.pc.toNat = 254 → (s.mem.read (s.pc.toNat + 1)).toNat < 8 →
      TakesFault (step s) s .addressOutOfRange 256) ∧
    (o.format = .f2rr → s.pc.toNat ≤ 253 → (s.mem.read (s.pc.toNat + 1)).toNat < 8 →
      8 ≤ (s.mem.read (s.pc.toNat + 2)).toNat →
      TakesFault (step s) s .invalidRegisterReference (s.mem.read (s.pc.toNat + 2)).toNat)) ∧
  (∀ (s : State) (i : Instr), s.run = .running → fetch Config.default s = .ok i →
    (i.op = .call → s.pc.toNat = 254 → TakesFault (step s) s .addressOutOfRange 256) ∧
    (i.advances s.flags = true → 255 < s.pc.toNat + 1 + i.count.toNat →
      TakesFault (step s) s .addressOutOfRange (s.pc.toNat + 1 + i.count.toNat)))

/-- R171: what a fault records. Each cause is raised at its stage with its `info`, the fault address is the
instruction's, an out-of-range address is 256 to 258 and 258 only for `n` = 3 at 254; and the codes. -/
def Obligations.FaultRecordsNameTheirCause : Prop :=
  (∀ s t : State, step s = .next t → t.run = .faulted →
    ∃ f, t.fault = some f ∧ f.faultPc = s.pc ∧
      (f.cause = .invalidInstruction ∧ selectOp Config.default s.ir = none ∧ f.info = s.ir.toNat ∨
       f.cause = .invalidRegisterReference ∧ 8 ≤ f.info ∧
         (∃ o, selectOp Config.default s.ir = some o ∧
           (o.format ≠ .f0 ∧ s.pc.toNat ≤ 254 ∧ f.info = (s.mem.read (s.pc.toNat + 1)).toNat ∨
            o.format = .f2rr ∧ s.pc.toNat ≤ 253 ∧ f.info = (s.mem.read (s.pc.toNat + 2)).toNat)) ∨
       f.cause = .addressOutOfRange ∧ 256 ≤ f.info ∧ f.info ≤ 258 ∧
         (∃ o, selectOp Config.default s.ir = some o ∧ o ≠ .hlt) ∧
         (f.info = s.pc.toNat + 1 ∨ f.info = s.pc.toNat + 2 ∨ f.info = s.pc.toNat + 1 + (irCount s.ir).toNat) ∧
         (f.info = 258 → irCount s.ir = 3 ∧ s.pc.toNat = 254))) ∧
  (∀ s : State, s.fault = none → s.faultCode = 0) ∧
  (∀ (s : State) (f : FaultRecord), s.fault = some f →
    s.faultCode = (match f.cause with
      | .invalidInstruction => 1
      | .invalidRegisterReference => 2
      | .unsupportedAluOperation => 3
      | .systemFault => 4
      | .addressOutOfRange => 5))

/-- R43's two policies: under `wrap` no step of any machine takes `AddressOutOfRange`, the operand bytes come from
addresses mod 256 and so do CALL's return address and the advance; under `fault` the advance raises. -/
def Obligations.AddressPolicyWrapOrFault : Prop :=
  (∀ (c : Config) (s t : State) (f : FaultRecord), c.outOfRange = .wrap → stepWith c s = .next t → t.run = .faulted →
    t.fault = some f → f.cause ≠ .addressOutOfRange) ∧
  (∀ (c : Config) (s : State), c.outOfRange = .wrap →
    fetchBytes c s = [s.readByte s.pc, s.readByte (s.pc + 1), s.readByte (s.pc + 2)]) ∧
  (∀ (c : Config) (s : State) (i : Instr), c.outOfRange = .wrap → i.advances s.flags = true →
    (execWith c i s).pc = s.pc + 1 + i.count.setWidth 8) ∧
  (∀ (c : Config) (s : State) (n : Count) (f : Bool) (r : Reg), c.outOfRange = .wrap → s.mem.wf = true →
    (execWith c (.call n f r) s).readByte (s.reg 7 - 1) = s.pc + 2) ∧
  (∀ (c : Config) (s : State) (i : Instr), c.outOfRange = .fault → i.advances s.flags = true →
    255 < s.pc.toNat + 1 + i.count.toNat →
    TakesFault (.next (execWith c i s)) s .addressOutOfRange (s.pc.toNat + 1 + i.count.toNat))

/-! ## ALU instructions -/

/-- R101. -/
def Obligations.AddIsTheSumMod256 : Prop :=
  (∀ a b : Reg, decode Config.default [0xA0, regByte a, regByte b] = .ok (.add 2 a b)) ∧
  OperandFaults 0xA0 .f2rr ∧
  ∀ (s : State) (n : Count) (a b : Reg),
    (s.pc.toNat + 1 + n.toNat ≤ 255 →
      ∃ t, exec (.add n a b) s = .next t ∧ (t.reg a).toNat = ((s.reg a).toNat + (s.reg b).toNat) % 256 ∧
        s.keepsRegsExcept t [a] ∧ t.pc.toNat = s.pc.toNat + 1 + n.toNat ∧ t.flags = s.flags ∧ s.keepsRest t) ∧
    (255 < s.pc.toNat + 1 + n.toNat →
      TakesFault (exec (.add n a b) s) s .addressOutOfRange (s.pc.toNat + 1 + n.toNat))

/-- R102. -/
def Obligations.MulIsTheProductMod256 : Prop :=
  (∀ a b : Reg, decode Config.default [0xA2, regByte a, regByte b] = .ok (.mul 2 a b)) ∧
  OperandFaults 0xA2 .f2rr ∧
  ∀ (s : State) (n : Count) (a b : Reg),
    (s.pc.toNat + 1 + n.toNat ≤ 255 →
      ∃ t, exec (.mul n a b) s = .next t ∧ (t.reg a).toNat = ((s.reg a).toNat * (s.reg b).toNat) % 256 ∧
        s.keepsRegsExcept t [a] ∧ t.pc.toNat = s.pc.toNat + 1 + n.toNat ∧ t.flags = s.flags ∧ s.keepsRest t) ∧
    (255 < s.pc.toNat + 1 + n.toNat →
      TakesFault (exec (.mul n a b) s) s .addressOutOfRange (s.pc.toNat + 1 + n.toNat))

/-- R103; that the comparison is unsigned is the spec's decision D7, assumption log 5. -/
def Obligations.CmpSetsTheUnsignedThreeWayFlags : Prop :=
  (∀ a b : Reg, decode Config.default [0xA7, regByte a, regByte b] = .ok (.cmp 2 a b)) ∧
  OperandFaults 0xA7 .f2rr ∧
  ∀ (s : State) (n : Count) (a b : Reg),
    (s.pc.toNat + 1 + n.toNat ≤ 255 →
      ∃ t, exec (.cmp n a b) s = .next t ∧
        (t.flags.l = true ↔ (s.reg a).toNat < (s.reg b).toNat) ∧
        (t.flags.e = true ↔ (s.reg a).toNat = (s.reg b).toNat) ∧
        (t.flags.g = true ↔ (s.reg b).toNat < (s.reg a).toNat) ∧
        s.keepsRegsExcept t [] ∧ t.pc.toNat = s.pc.toNat + 1 + n.toNat ∧ s.keepsRest t) ∧
    (255 < s.pc.toNat + 1 + n.toNat →
      TakesFault (exec (.cmp n a b) s) s .addressOutOfRange (s.pc.toNat + 1 + n.toNat))

/-! ## Data operations -/

/-- R151. -/
def Obligations.LdiLoadsTheImmediate : Prop :=
  (∀ (r : Reg) (imm : Byte), decode Config.default [0x82, regByte r, imm] = .ok (.ldi 2 r imm)) ∧
  OperandFaults 0x82 .f2ri ∧
  ∀ (s : State) (n : Count) (r : Reg) (imm : Byte),
    (s.pc.toNat + 1 + n.toNat ≤ 255 →
      ∃ t, exec (.ldi n r imm) s = .next t ∧ t.reg r = imm ∧ s.keepsRegsExcept t [r] ∧
        t.pc.toNat = s.pc.toNat + 1 + n.toNat ∧ t.flags = s.flags ∧ s.keepsRest t) ∧
    (255 < s.pc.toNat + 1 + n.toNat →
      TakesFault (exec (.ldi n r imm) s) s .addressOutOfRange (s.pc.toNat + 1 + n.toNat))

/-- R152, with the host's rendering of the byte. A PRN that faults puts nothing out. -/
def Obligations.PrnAppendsTheRegisterToTheOutput : Prop :=
  (∀ r : Reg, decode Config.default [0x47, regByte r] = .ok (.prn 1 r)) ∧
  OperandFaults 0x47 .f1r ∧
  (∀ v : Byte, renderByte v = Nat.toDigits 10 v.toNat ++ ['\n']) ∧
  ∀ (s : State) (n : Count) (r : Reg),
    (s.pc.toNat + 1 + n.toNat ≤ 255 →
      ∃ t, exec (.prn n r) s = .next t ∧ t.out = s.out ++ [s.reg r] ∧ s.keepsRegsExcept t [] ∧
        t.pc.toNat = s.pc.toNat + 1 + n.toNat ∧ t.flags = s.flags ∧ s.keepsMemory t ∧ s.keepsStatus t) ∧
    (255 < s.pc.toNat + 1 + n.toNat →
      TakesFault (exec (.prn n r) s) s .addressOutOfRange (s.pc.toNat + 1 + n.toNat))

/-- R153: the stack pointer moves down first, then the named register is stored, so PUSH R7 stores the new `sp` (the order
is the spec's decision D21, assumption log 5). -/
def Obligations.PushStoresBelowTheStackPointer : Prop :=
  (∀ r : Reg, decode Config.default [0x45, regByte r] = .ok (.push 1 r)) ∧
  OperandFaults 0x45 .f1r ∧
  ∀ (s : State) (n : Count) (r : Reg),
    (s.pc.toNat + 1 + n.toNat ≤ 255 →
      ∃ t, exec (.push n r) s = .next t ∧ t.reg 7 = s.reg 7 - 1 ∧
        (s.mem.wf = true → t.readByte s.pushAddress = if r = 7 then s.reg 7 - 1 else s.reg r) ∧
        s.pushAddress = s.reg 7 - 1 ∧ s.keepsMemoryExcept t s.pushAddress ∧ s.keepsRegsExcept t [7] ∧
        t.pc.toNat = s.pc.toNat + 1 + n.toNat ∧ t.flags = s.flags ∧ t.out = s.out ∧ s.keepsStatus t) ∧
    (255 < s.pc.toNat + 1 + n.toNat →
      TakesFault (exec (.push n r) s) s .addressOutOfRange (s.pc.toNat + 1 + n.toNat))

/-- R154: the named register gets the byte at `sp`, then the stack pointer moves up, so POP R7 leaves that byte plus 1.
No memory cell changes. The order is the spec's decision D21, assumption log 5. -/
def Obligations.PopLoadsTheTopOfTheStack : Prop :=
  (∀ r : Reg, decode Config.default [0x46, regByte r] = .ok (.pop 1 r)) ∧
  OperandFaults 0x46 .f1r ∧
  ∀ (s : State) (n : Count) (r : Reg),
    (s.pc.toNat + 1 + n.toNat ≤ 255 →
      ∃ t, exec (.pop n r) s = .next t ∧
        (r ≠ 7 → t.reg r = s.readByte (s.reg 7) ∧ t.reg 7 = s.reg 7 + 1) ∧
        (r = 7 → t.reg 7 = s.readByte (s.reg 7) + 1) ∧
        s.keepsRegsExcept t [r, 7] ∧ t.pc.toNat = s.pc.toNat + 1 + n.toNat ∧ t.flags = s.flags ∧ s.keepsRest t) ∧
    (255 < s.pc.toNat + 1 + n.toNat →
      TakesFault (exec (.pop n r) s) s .addressOutOfRange (s.pc.toNat + 1 + n.toNat))

/-- R155: HLT, in each of its four spellings, moves to Halted with everything else kept and never faults, even at 255;
after it there is no step. That `step` answers `alreadyHalted` there, where the spec has no step, is the model's choice,
assumption log 7 (DESIGN CHOICE). -/
def Obligations.HltStopsTheRun : Prop :=
  (∀ rest : List Byte,
    decode Config.default (0x01 :: rest) = .ok (.hlt 0) ∧ decode Config.default (0x41 :: rest) = .ok (.hlt 1) ∧
    decode Config.default (0x81 :: rest) = .ok (.hlt 2) ∧ decode Config.default (0xC1 :: rest) = .ok (.hlt 3)) ∧
  ∀ (s : State) (n : Count),
    ∃ t, exec (.hlt n) s = .next t ∧ t.run = .halted ∧ t.pc = s.pc ∧ s.keepsRegsExcept t [] ∧ t.flags = s.flags ∧
      s.keepsMemory t ∧ t.out = s.out ∧ t.fault = s.fault ∧ step t = .fault .alreadyHalted

/-! ## Control flow -/

/-- R120: the return address `pc + 2` goes below the stack pointer, then the target is read, so CALL R7 jumps to the new
`sp` (the spec's decision D21, assumption log 5). A return address above 255 faults, or wraps under the policy `wrap`. -/
def Obligations.CallPushesTheReturnAddress : Prop :=
  (∀ r : Reg, decode Config.default [0x50, regByte r] = .ok (.call 1 false r)) ∧
  OperandFaults 0x50 .f1r ∧
  (∀ (s : State) (n : Count) (f : Bool) (r : Reg),
    (s.pc.toNat + 2 ≤ 255 →
      ∃ t, exec (.call n f r) s = .next t ∧ t.reg 7 = s.reg 7 - 1 ∧
        (s.mem.wf = true → (t.readByte s.pushAddress).toNat = s.pc.toNat + 2) ∧
        s.pushAddress = s.reg 7 - 1 ∧ s.keepsMemoryExcept t s.pushAddress ∧ s.keepsRegsExcept t [7] ∧
        t.pc = (if r = 7 then s.reg 7 - 1 else s.reg r) ∧ t.flags = s.flags ∧ t.out = s.out ∧ s.keepsStatus t) ∧
    (255 < s.pc.toNat + 2 →
      TakesFault (exec (.call n f r) s) s .addressOutOfRange (s.pc.toNat + 2))) ∧
  ∀ (c : Config) (s : State) (n : Count) (f : Bool) (r : Reg), c.outOfRange = .wrap → s.mem.wf = true →
    ((execWith c (.call n f r) s).readByte (s.reg 7 - 1)).toNat = (s.pc.toNat + 2) % 256 ∧
    (execWith c (.call n f r) s).pc = if r = 7 then s.reg 7 - 1 else s.reg r

/-- R121: RET jumps to the byte on top of the stack and moves the stack pointer up. The byte after it must be a register
reference, and exist, under `RET_DECODES_OPERAND`; with that parameter false no operand byte is read. -/
def Obligations.RetPopsTheProgramCounter : Prop :=
  (∀ r : Reg, decode Config.default [0x11, regByte r] = .ok (.ret 0 false (some r))) ∧
  OperandFaults 0x11 .f0s ∧
  (∀ (s : State) (n : Count) (f : Bool) (ignored : Option Reg),
    ∃ t, exec (.ret n f ignored) s = .next t ∧ t.pc = s.readByte (s.reg 7) ∧ t.reg 7 = s.reg 7 + 1 ∧
      s.keepsRegsExcept t [7] ∧ t.flags = s.flags ∧ s.keepsRest t) ∧
  ∀ (c : Config) (s : State), c.retDecodesOperand = false → s.run = .running →
    selectOp c s.ir = some .ret →
    ∃ t, stepWith c s = .next t ∧ t.pc = s.readByte (s.reg 7) ∧ t.reg 7 = s.reg 7 + 1 ∧
      s.keepsRegsExcept t [7] ∧ t.flags = s.flags ∧ s.keepsRest t

/-- R122. -/
def Obligations.JmpSetsTheProgramCounter : Prop :=
  (∀ r : Reg, decode Config.default [0x54, regByte r] = .ok (.jmp 1 false r)) ∧
  OperandFaults 0x54 .f1r ∧
  ∀ (s : State) (n : Count) (f : Bool) (r : Reg),
    ∃ t, exec (.jmp n f r) s = .next t ∧ t.pc = s.reg r ∧ s.keepsRegsExcept t [] ∧ t.flags = s.flags ∧ s.keepsRest t

/-- R123, R126 and R128: JEQ, JGT and JLT are taken iff `FL` is exactly {E}, {G} and {L}. -/
def Obligations.ExactFlagBranches : Prop :=
  BranchRule .jeq 0x55 (fun f => f = { l := false, e := true, g := false }) ∧
  BranchRule .jgt 0x57 (fun f => f = { l := false, e := false, g := true }) ∧
  BranchRule .jlt 0x58 (fun f => f = { l := true, e := false, g := false })

/-- R124, R125 and R127: JNE is taken iff E is clear, JGE iff G or E is set, JLE iff L or E is set. -/
def Obligations.FlagMemberBranches : Prop :=
  BranchRule .jne 0x56 (fun f => f.e = false) ∧
  BranchRule .jge 0x5A (fun f => f.g = true ∨ f.e = true) ∧
  BranchRule .jle 0x59 (fun f => f.l = true ∨ f.e = true)

/-- R129: the table of branch decisions by the value of `FL`, and after a CMP the unsigned relation each branch tests. -/
def Obligations.BranchesFollowTheComparison : Prop :=
  (∀ (s : State) (m : Count) (f : Bool) (r : Reg),
    (s.flags = { l := false, e := false, g := false } → BranchRow s m f r False True False False False False) ∧
    (s.flags = { l := true, e := false, g := false } → BranchRow s m f r False True False False True True) ∧
    (s.flags = { l := false, e := true, g := false } → BranchRow s m f r True False True False True False) ∧
    (s.flags = { l := false, e := false, g := true } → BranchRow s m f r False True True True False False)) ∧
  ∀ (s t : State) (n m : Count) (f : Bool) (a b r : Reg), s.pc.toNat + 1 + n.toNat ≤ 255 →
    exec (.cmp n a b) s = .next t →
    BranchRow t m f r (s.reg a = s.reg b) (s.reg a ≠ s.reg b) ((s.reg b).toNat ≤ (s.reg a).toNat)
      ((s.reg b).toNat < (s.reg a).toNat) ((s.reg a).toNat ≤ (s.reg b).toNat) ((s.reg a).toNat < (s.reg b).toNat)

/-! ## Rules about the whole machine -/

/-- R22, the registers each instruction may write: an instruction that completes leaves every other register as it was. -/
def Obligations.OnlyNamedRegistersAreWritten : Prop :=
  ∀ (i : Instr) (s t : State), exec i s = .next t → t.run ≠ .faulted → s.keepsRegsExcept t i.writtenRegs

/-- R40 with C4: only PUSH and CALL write memory, and only the byte below the stack pointer; every other instruction that
completes, POP among them, leaves every byte as it was. -/
def Obligations.OnlyPushAndCallWriteMemory : Prop :=
  ∀ (i : Instr) (s t : State), exec i s = .next t → t.run ≠ .faulted →
    (∀ a, i.storeAddress s = some a → a = s.reg 7 - 1 ∧ s.keepsMemoryExcept t a) ∧
    (i.storeAddress s = none → s.keepsMemory t)

/-- R28: only CMP writes `FL`, and it overwrites all three bits whatever they were; only the six conditional branches
read it, so every other instruction does the same to the rest of the state under any two values of `FL`. -/
def Obligations.FlagsAreWrittenByCmpAndReadByBranches : Prop :=
  (∀ (i : Instr) (s t : State), i.op ≠ .cmp → exec i s = .next t → t.run ≠ .faulted → t.flags = s.flags) ∧
  (∀ (s t t' : State) (f : Flags) (n : Count) (a b : Reg), exec (.cmp n a b) s = .next t →
    exec (.cmp n a b) (s.setFlags f) = .next t' → t.run ≠ .faulted → t'.flags = t.flags) ∧
  (∀ (i : Instr) (s t : State) (f : Flags), i.op.isConditionalBranch = false → exec i s = .next t →
    ∃ t', exec i (s.setFlags f) = .next t' ∧ t'.run = t.run ∧ t'.fault = t.fault ∧ t'.out = t.out ∧
      (t.run ≠ .faulted → t' = t.setFlags t'.flags))

/-- R29: `FL` is {} until the first CMP and never again: after a CMP exactly one bit is set, and from a state whose `FL`
is {L}, {E} or {G} every step that does not fault leads to such a state. -/
def Obligations.ExactlyOneFlagAfterCompare : Prop :=
  State.reset.flags = { l := false, e := false, g := false } ∧
  (∀ (s t : State) (n : Count), step s = .next t → t.run ≠ .faulted →
    (∃ a b, fetch Config.default s = .ok (.cmp n a b)) → t.flags.legal = true ∧ t.flags ≠ Flags.empty) ∧
  (∀ s t : State, step s = .next t → t.run ≠ .faulted → s.flags.legal = true →
    t.flags.legal = true ∧ (t.flags = Flags.empty → s.flags = Flags.empty) ∧
    (t.flags ≠ s.flags → ∃ n a b, fetch Config.default s = .ok (.cmp n a b)))

/-- R33: the output grows by PRN alone, at its end and by the one byte of the named register; every other step, a faulting
one included, leaves it as it was. -/
def Obligations.OutputGrowsOnlyByPrn : Prop :=
  ∀ s t : State, step s = .next t →
    t.out = s.out ∨
    (∃ n r, fetch Config.default s = .ok (.prn n r) ∧ t.run = .running ∧ t.out = s.out ++ [s.reg r])

/-! ## Sequences of two instructions -/

/-- A CALL followed at once by a RET goes on at the instruction after the CALL with every register as before it. -/
def Obligations.RetUndoesCall : Prop :=
  ∀ (s t : State) (n m : Count) (f g : Bool) (r : Reg) (ignored : Option Reg), s.mem.wf = true →
    s.pc.toNat ≤ 253 → exec (.call n f r) s = .next t →
    ∃ u, exec (.ret m g ignored) t = .next u ∧ u.pc.toNat = s.pc.toNat + 2 ∧ s.keepsRegsExcept u [] ∧
      u.flags = s.flags ∧ s.keepsMemoryExcept u s.pushAddress ∧ u.out = s.out ∧ s.keepsStatus u

/-- A PUSH followed by a POP into another register than `sp` moves the value there, restores `sp`, and leaves the value
in the stack cell. -/
def Obligations.PopAfterPushRoundTrips : Prop :=
  ∀ (s t : State) (n m : Count) (r q : Reg), s.mem.wf = true → q ≠ 7 → r ≠ 7 →
    s.pc.toNat + 1 + n.toNat ≤ 255 → exec (.push n r) s = .next t → t.pc.toNat + 1 + m.toNat ≤ 255 →
    ∃ u, exec (.pop m q) t = .next u ∧ u.reg q = s.reg r ∧ u.reg 7 = s.reg 7 ∧ s.keepsRegsExcept u [q] ∧
      u.readByte s.pushAddress = s.reg r ∧ s.keepsMemoryExcept u s.pushAddress

/-- R55 and R211, self-modifying code: a byte that a PUSH or a CALL writes where the next instruction is fetched is the
byte fetched. If it spells HLT the machine halts there, and if no table holds it that is the fault. -/
def Obligations.StoredByteIsFetchedNext : Prop :=
  ∀ (s t : State) (v : Byte), s.mem.wf = true → t.run = .running → t.pc = s.pushAddress →
    ((∃ n r, exec (.push n r) s = .next t ∧ v = if r = 7 then s.reg 7 - 1 else s.reg r) ∨
     (∃ n f r, exec (.call n f r) s = .next t ∧ v = s.pc + 2)) →
    t.ir = v ∧
    (irSpecial v = false → irAlu v = false → irOp v = 1 → step t = .next t.halt) ∧
    (selectOp Config.default v = none → TakesFault (step t) t .invalidInstruction v.toNat)
end

