-- ==== Sys2Proof/Laws/Decode.lean ====
section
/-! SUPPORT. The small lemmas of the decoder and the encoder: the fields of an instruction byte, and register-reference
bytes. -/

namespace Sys2Proof

@[simp] theorem irCount_headByte (n : Count) (a s : Bool) (op : BitVec 4) : irCount (headByte n a s op) = n := by
  revert n a s op; decide

@[simp] theorem irAlu_headByte (n : Count) (a s : Bool) (op : BitVec 4) : irAlu (headByte n a s op) = a := by
  revert n a s op; decide

@[simp] theorem irSpecial_headByte (n : Count) (a s : Bool) (op : BitVec 4) : irSpecial (headByte n a s op) = s := by
  revert n a s op; decide

@[simp] theorem irOp_headByte (n : Count) (a s : Bool) (op : BitVec 4) : irOp (headByte n a s op) = op := by
  revert n a s op; decide

/-- An instruction byte is put together from its own four fields (R61). -/
theorem headByte_fields (ir : Byte) : headByte (irCount ir) (irAlu ir) (irSpecial ir) (irOp ir) = ir := by
  revert ir; decide

/-- The byte of a register is a legal reference to it (R63, R74). -/
@[simp] theorem regRef_regByte (r : Reg) : regRef (regByte r) = .ok r := by
  revert r; decide

/-- A legal register-reference byte is the byte of the register it names (R63). -/
theorem regByte_of_regRef {b : Byte} {r : Reg} (h : regRef b = .ok r) : b = regByte r := by
  unfold regRef at h
  split at h
  · rename_i hz
    cases h
    revert b; decide
  · cases h

/-- Exactly the bytes below 8 are register references (R63). -/
theorem regRef_of_lt {b : Byte} (h : b.toNat < 8) : regRef b = .ok ⟨b.toNat, h⟩ := by
  revert b; decide

theorem regRef_of_ge {b : Byte} (h : 8 ≤ b.toNat) : regRef b = .error (.invalidRegisterReference b) := by
  have hz : b.extractLsb' 3 5 ≠ 0 := by revert b; decide
  exact if_neg hz

@[simp] theorem operandByte_of_get {bytes : List Byte} {k : Nat} {b : Byte} (h : bytes[k]? = some b) :
    operandByte bytes k = .ok b := by
  simp only [operandByte, h]

@[simp] theorem operandByte_of_none {bytes : List Byte} {k : Nat} (h : bytes[k]? = none) :
    operandByte bytes k = .error (.missingByte k) := by
  simp only [operandByte, h]

/-- A valid opcode table finds the row of every instruction. -/
theorem Config.Valid.mem_row {c : Config} (h : c.Valid) (o : Op) : (o, c.opcodeOf o) ∈ c.opcodes := by
  have ho : o ∈ Op.all := by cases o <;> decide
  obtain ⟨⟨o', v⟩, hrow, rfl⟩ := List.mem_map.mp (h.1 o ho)
  unfold Config.opcodeOf
  cases hf : c.opcodes.find? (fun row => row.1 == o') with
  | none => exact absurd (List.find?_eq_none.mp hf _ hrow) (by simp)
  | some row =>
    have h1 := List.find?_some hf
    obtain ⟨p, w⟩ := row
    obtain rfl : p = o' := by simpa using h1
    exact List.mem_of_find?_eq_some hf

/-- The one configuration of the CORE has a valid opcode table (R66, R71). -/
theorem Config.default_valid : Config.default.Valid := by decide

end Sys2Proof
end

