-- ==== Sys2Proof/Laws/State.lean ====
section
/-! SUPPORT. The fields of a state after each update, one lemma per field per update, and what the two accessors
`reg` and `readByte` read after each update. -/

namespace Sys2Proof.Machine
namespace State

variable (s : State)

/-! ### setReg -/

@[simp] theorem setReg_regs (r : Reg) (v : Byte) : (s.setReg r v).regs = s.regs.set r v := rfl
@[simp] theorem setReg_pc (r : Reg) (v : Byte) : (s.setReg r v).pc = s.pc := rfl
@[simp] theorem setReg_flags (r : Reg) (v : Byte) : (s.setReg r v).flags = s.flags := rfl
@[simp] theorem setReg_mem (r : Reg) (v : Byte) : (s.setReg r v).mem = s.mem := rfl
@[simp] theorem setReg_run (r : Reg) (v : Byte) : (s.setReg r v).run = s.run := rfl
@[simp] theorem setReg_fault (r : Reg) (v : Byte) : (s.setReg r v).fault = s.fault := rfl
@[simp] theorem setReg_out (r : Reg) (v : Byte) : (s.setReg r v).out = s.out := rfl
@[simp] theorem reg_setReg_self (r : Reg) (v : Byte) : (s.setReg r v).reg r = v := by
  simp [reg]
theorem reg_setReg_ne (r q : Reg) (v : Byte) (h : q ≠ r) : (s.setReg r v).reg q = s.reg q := by
  simp only [reg, setReg_regs, Fin.getElem_fin]
  exact Vector.getElem_set_ne _ _ fun e => h (Fin.ext e.symm)
theorem reg_setReg (r q : Reg) (v : Byte) : (s.setReg r v).reg q = if q = r then v else s.reg q := by
  by_cases h : q = r
  · rw [if_pos h, h, reg_setReg_self]
  · rw [if_neg h, reg_setReg_ne _ _ _ _ h]
@[simp] theorem readByte_setReg (r : Reg) (v : Byte) (b : Byte) : (s.setReg r v).readByte b = s.readByte b := rfl

/-! ### writeByte -/

@[simp] theorem writeByte_regs (a v : Byte) : (s.writeByte a v).regs = s.regs := rfl
@[simp] theorem writeByte_pc (a v : Byte) : (s.writeByte a v).pc = s.pc := rfl
@[simp] theorem writeByte_flags (a v : Byte) : (s.writeByte a v).flags = s.flags := rfl
@[simp] theorem writeByte_mem (a v : Byte) : (s.writeByte a v).mem = s.mem.write a.toNat v := rfl
@[simp] theorem writeByte_run (a v : Byte) : (s.writeByte a v).run = s.run := rfl
@[simp] theorem writeByte_fault (a v : Byte) : (s.writeByte a v).fault = s.fault := rfl
@[simp] theorem writeByte_out (a v : Byte) : (s.writeByte a v).out = s.out := rfl
@[simp] theorem reg_writeByte (a v : Byte) (q : Reg) : (s.writeByte a v).reg q = s.reg q := rfl

/-! ### setPc -/

@[simp] theorem setPc_regs (p : Byte) : (s.setPc p).regs = s.regs := rfl
@[simp] theorem setPc_pc (p : Byte) : (s.setPc p).pc = p := rfl
@[simp] theorem setPc_flags (p : Byte) : (s.setPc p).flags = s.flags := rfl
@[simp] theorem setPc_mem (p : Byte) : (s.setPc p).mem = s.mem := rfl
@[simp] theorem setPc_run (p : Byte) : (s.setPc p).run = s.run := rfl
@[simp] theorem setPc_fault (p : Byte) : (s.setPc p).fault = s.fault := rfl
@[simp] theorem setPc_out (p : Byte) : (s.setPc p).out = s.out := rfl
@[simp] theorem reg_setPc (p : Byte) (q : Reg) : (s.setPc p).reg q = s.reg q := rfl
@[simp] theorem readByte_setPc (p : Byte) (b : Byte) : (s.setPc p).readByte b = s.readByte b := rfl

/-! ### setFlags -/

@[simp] theorem setFlags_regs (f : Flags) : (s.setFlags f).regs = s.regs := rfl
@[simp] theorem setFlags_pc (f : Flags) : (s.setFlags f).pc = s.pc := rfl
@[simp] theorem setFlags_flags (f : Flags) : (s.setFlags f).flags = f := rfl
@[simp] theorem setFlags_mem (f : Flags) : (s.setFlags f).mem = s.mem := rfl
@[simp] theorem setFlags_run (f : Flags) : (s.setFlags f).run = s.run := rfl
@[simp] theorem setFlags_fault (f : Flags) : (s.setFlags f).fault = s.fault := rfl
@[simp] theorem setFlags_out (f : Flags) : (s.setFlags f).out = s.out := rfl
@[simp] theorem reg_setFlags (f : Flags) (q : Reg) : (s.setFlags f).reg q = s.reg q := rfl
@[simp] theorem readByte_setFlags (f : Flags) (b : Byte) : (s.setFlags f).readByte b = s.readByte b := rfl

/-! ### emit -/

@[simp] theorem emit_regs (v : Byte) : (s.emit v).regs = s.regs := rfl
@[simp] theorem emit_pc (v : Byte) : (s.emit v).pc = s.pc := rfl
@[simp] theorem emit_flags (v : Byte) : (s.emit v).flags = s.flags := rfl
@[simp] theorem emit_mem (v : Byte) : (s.emit v).mem = s.mem := rfl
@[simp] theorem emit_run (v : Byte) : (s.emit v).run = s.run := rfl
@[simp] theorem emit_fault (v : Byte) : (s.emit v).fault = s.fault := rfl
@[simp] theorem emit_out (v : Byte) : (s.emit v).out = s.out ++ [v] := rfl
@[simp] theorem reg_emit (v : Byte) (q : Reg) : (s.emit v).reg q = s.reg q := rfl
@[simp] theorem readByte_emit (v : Byte) (b : Byte) : (s.emit v).readByte b = s.readByte b := rfl

/-! ### halt -/

@[simp] theorem halt_regs : s.halt.regs = s.regs := rfl
@[simp] theorem halt_pc : s.halt.pc = s.pc := rfl
@[simp] theorem halt_flags : s.halt.flags = s.flags := rfl
@[simp] theorem halt_mem : s.halt.mem = s.mem := rfl
@[simp] theorem halt_run : s.halt.run = .halted := rfl
@[simp] theorem halt_fault : s.halt.fault = s.fault := rfl
@[simp] theorem halt_out : s.halt.out = s.out := rfl
@[simp] theorem reg_halt (q : Reg) : s.halt.reg q = s.reg q := rfl
@[simp] theorem readByte_halt (b : Byte) : s.halt.readByte b = s.readByte b := rfl

/-! ### raise -/

@[simp] theorem raise_regs (c : FaultCause) (i : Nat) : (s.raise c i).regs = s.regs := rfl
@[simp] theorem raise_pc (c : FaultCause) (i : Nat) : (s.raise c i).pc = s.pc := rfl
@[simp] theorem raise_flags (c : FaultCause) (i : Nat) : (s.raise c i).flags = s.flags := rfl
@[simp] theorem raise_mem (c : FaultCause) (i : Nat) : (s.raise c i).mem = s.mem := rfl
@[simp] theorem raise_run (c : FaultCause) (i : Nat) : (s.raise c i).run = .faulted := rfl
@[simp] theorem raise_fault (c : FaultCause) (i : Nat) : (s.raise c i).fault = some ⟨c, s.pc, i⟩ := rfl
@[simp] theorem raise_out (c : FaultCause) (i : Nat) : (s.raise c i).out = s.out := rfl
@[simp] theorem reg_raise (c : FaultCause) (i : Nat) (q : Reg) : (s.raise c i).reg q = s.reg q := rfl
@[simp] theorem readByte_raise (c : FaultCause) (i : Nat) (b : Byte) : (s.raise c i).readByte b = s.readByte b := rfl

/-! ### The stack pointer -/

theorem sp_eq : s.sp = s.reg 7 := rfl
theorem pushAddress_eq : s.pushAddress = s.reg 7 - 1 := rfl
theorem decrementSp_eq : s.decrementSp = s.setReg 7 s.pushAddress := rfl
theorem incrementSp_eq : s.incrementSp = s.setReg 7 (s.reg 7 + 1) := rfl
@[simp] theorem sp_writeByte (a v : Byte) : (s.writeByte a v).sp = s.sp := rfl
@[simp] theorem pushAddress_writeByte (a v : Byte) : (s.writeByte a v).pushAddress = s.pushAddress := rfl
@[simp] theorem sp_decrementSp : s.decrementSp.sp = s.pushAddress := reg_setReg_self ..
@[simp] theorem readByte_decrementSp (b : Byte) : s.decrementSp.readByte b = s.readByte b := rfl
@[simp] theorem decrementSp_mem : s.decrementSp.mem = s.mem := rfl
theorem reg_decrementSp (q : Reg) : s.decrementSp.reg q = if q = 7 then s.pushAddress else s.reg q := reg_setReg ..
theorem reg_incrementSp (q : Reg) : s.incrementSp.reg q = if q = 7 then s.reg 7 + 1 else s.reg q := reg_setReg ..
@[simp] theorem readByte_incrementSp (b : Byte) : s.incrementSp.readByte b = s.readByte b := rfl
@[simp] theorem incrementSp_mem : s.incrementSp.mem = s.mem := rfl
theorem stackTop_eq : s.stackTop = s.readByte (s.reg 7) := rfl

end State
end Sys2Proof.Machine
end

