-- ==== Sys2Proof/Laws/Memory.lean ====
section
/-! SUPPORT. Memory: what a read gives after a write (R41, R42), and that every memory operation keeps the canonical
form. -/

namespace Sys2Proof.Machine
namespace Memory

@[simp] theorem read_nil (a : Nat) : read [] a = 0 := rfl

@[simp] theorem wf_nil : wf [] = true := rfl

theorem read_cons (k : Nat) (v : Byte) (m : Memory) (a : Nat) :
    read ((k, v) :: m) a = if a = k then v else read m a := rfl

theorem write_nil (a : Nat) (v : Byte) : write [] a v = if v = 0 then [] else [(a, v)] := rfl

theorem write_cons (k : Nat) (x : Byte) (m : Memory) (a : Nat) (v : Byte) :
    write ((k, x) :: m) a v =
      if a < k then (if v = 0 then (k, x) :: m else (a, v) :: (k, x) :: m)
      else if a = k then (if v = 0 then m else (a, v) :: m)
      else (k, x) :: write m a v := rfl

theorem wfFrom_cons {lo k : Nat} {v : Byte} {m : Memory} :
    wfFrom lo ((k, v) :: m) = true ↔ lo ≤ k ∧ k < memSize ∧ v ≠ 0 ∧ wfFrom (k + 1) m = true := by
  simp [wfFrom, and_assoc]

/-- Weakening the lower bound of the canonical form. -/
theorem wfFrom_mono {lo lo' : Nat} {m : Memory} (h : wfFrom lo' m = true) (hle : lo ≤ lo') :
    wfFrom lo m = true := by
  cases m with
  | nil => rfl
  | cons p m => exact wfFrom_cons.mpr ⟨hle.trans (wfFrom_cons.mp h).1, (wfFrom_cons.mp h).2⟩

/-- An address below every listed one reads as 0. -/
theorem read_of_lt {lo : Nat} {m : Memory} (h : wfFrom lo m = true) {a : Nat} (ha : a < lo) : read m a = 0 := by
  induction m generalizing lo with
  | nil => rfl
  | cons p m ih =>
    obtain ⟨k, v⟩ := p
    rw [wfFrom_cons] at h
    rw [read_cons, if_neg (by omega), ih h.2.2.2 (by omega)]

/-- A write leaves every other address as it was. -/
theorem read_write_ne (m : Memory) (a : Nat) (v : Byte) {b : Nat} (h : b ≠ a) :
    read (write m a v) b = read m b := by
  induction m with
  | nil =>
    rw [write_nil]
    split_ifs
    · rfl
    · rw [read_cons, if_neg h]
  | cons p m ih =>
    obtain ⟨k, x⟩ := p
    rw [write_cons]
    split_ifs with h1 h2 h3 h4
    · rfl
    · rw [read_cons, if_neg h]
    · rw [read_cons, if_neg (h3 ▸ h)]
    · rw [read_cons, read_cons, if_neg h, if_neg (h3 ▸ h)]
    · rw [read_cons, read_cons, ih]

theorem read_write_self_from {lo : Nat} {m : Memory} (h : wfFrom lo m = true) (a : Nat) (v : Byte) :
    read (write m a v) a = v := by
  induction m generalizing lo with
  | nil =>
    rw [write_nil]
    split_ifs with hv
    · exact hv.symm
    · rw [read_cons, if_pos rfl]
  | cons p m ih =>
    obtain ⟨k, x⟩ := p
    rw [wfFrom_cons] at h
    rw [write_cons]
    split_ifs with h1 h2 h3 h4
    · rw [read_cons, if_neg (by omega), read_of_lt h.2.2.2 (by omega), h2]
    · rw [read_cons, if_pos rfl]
    · rw [read_of_lt h.2.2.2 (by omega), h4]
    · rw [read_cons, if_pos rfl]
    · rw [read_cons, if_neg h3, ih h.2.2.2]

/-- A read of the address just written gives the value written. -/
theorem read_write_self {m : Memory} (h : m.wf = true) (a : Nat) (v : Byte) : read (write m a v) a = v :=
  read_write_self_from h a v

theorem write_wfFrom {lo : Nat} {m : Memory} (h : wfFrom lo m = true) {a : Nat} (hlo : lo ≤ a) (ha : a < memSize)
    (v : Byte) : wfFrom lo (write m a v) = true := by
  induction m generalizing lo with
  | nil =>
    rw [write_nil]
    split_ifs with hv
    · rfl
    · exact wfFrom_cons.mpr ⟨hlo, ha, hv, rfl⟩
  | cons p m ih =>
    obtain ⟨k, x⟩ := p
    have h' := wfFrom_cons.mp h
    rw [write_cons]
    split_ifs with h1 h2 h3 h4
    · exact h
    · exact wfFrom_cons.mpr ⟨hlo, ha, h2, wfFrom_cons.mpr ⟨h1, h'.2⟩⟩
    · exact wfFrom_mono h'.2.2.2 (by omega)
    · exact wfFrom_cons.mpr ⟨hlo, ha, h4, h3 ▸ h'.2.2.2⟩
    · exact wfFrom_cons.mpr ⟨h'.1, h'.2.1, h'.2.2.1, ih h'.2.2.2 (by omega)⟩

/-- A write to an address of the machine keeps the canonical form. -/
theorem write_wf {m : Memory} (h : m.wf = true) {a : Nat} (ha : a < memSize) (v : Byte) : (m.write a v).wf = true :=
  write_wfFrom h (Nat.zero_le a) ha v

/-- Placing bytes that fit below `MEM_SIZE` keeps the canonical form. -/
theorem place_wf {m : Memory} (h : m.wf = true) (a : Nat) (bytes : List Byte) (hfit : a + bytes.length ≤ memSize) :
    (m.place a bytes).wf = true := by
  induction bytes generalizing m a with
  | nil => exact h
  | cons b bytes ih =>
    simp only [List.length_cons] at hfit
    exact ih (write_wf h (by omega) b) (a + 1) (by omega)

/-- Placing bytes leaves every address below them as it was. -/
theorem read_place_of_lt (m : Memory) (a : Nat) (bytes : List Byte) {b : Nat} (hb : b < a) :
    read (m.place a bytes) b = read m b := by
  induction bytes generalizing m a with
  | nil => rfl
  | cons x bytes ih => rw [place, ih _ _ (by omega), read_write_ne _ _ _ (by omega)]

end Memory

namespace State

/-- A write to memory leaves every other address as it was (R42). -/
theorem readByte_writeByte_ne (s : State) (a v : Byte) {b : Byte} (h : b ≠ a) :
    (s.writeByte a v).readByte b = s.readByte b :=
  Memory.read_write_ne _ _ _ fun e => h (BitVec.eq_of_toNat_eq e)

/-- The address just written reads as the value written (R42). -/
theorem readByte_writeByte_self {s : State} (h : s.mem.wf = true) (a v : Byte) :
    (s.writeByte a v).readByte a = v :=
  Memory.read_write_self h _ _

/-- A write to memory keeps the canonical form: every 8-bit address is one of the machine. -/
theorem writeByte_wf {s : State} (h : s.mem.wf = true) (a v : Byte) : (s.writeByte a v).mem.wf = true :=
  Memory.write_wf h a.isLt v

end State
end Sys2Proof.Machine
end

