-- ==== Sys2Proof/Laws/Ops.lean ====
section
/-! SUPPORT. The shared operations: an address in and out of range (R43), and everything a commit can do (R86, R87). -/

namespace Sys2Proof.Machine

/-- An address up to 255 stands for itself, whatever the policy. -/
theorem resolveAddress_of_le (c : Config) {addr : Nat} (h : addr ≤ 255) :
    resolveAddress c addr = some (BitVec.ofNat 8 addr) := if_pos h

/-- Under the policy `fault`, an address above 255 stands for nothing. -/
theorem resolveAddress_of_gt {c : Config} (hc : c.outOfRange = .fault) {addr : Nat} (h : 255 < addr) :
    resolveAddress c addr = none := by
  rw [resolveAddress, if_neg (by omega), hc]

/-- Under the policy `wrap`, every address is taken mod 256. -/
theorem resolveAddress_of_wrap {c : Config} (hc : c.outOfRange = .wrap) (addr : Nat) :
    resolveAddress c addr = some (BitVec.ofNat 8 addr) := by
  rw [resolveAddress, hc, ite_self]

/-- Only an address above 255 can stand for nothing. -/
theorem lt_of_resolveAddress_eq_none {c : Config} {addr : Nat} (h : resolveAddress c addr = none) : 255 < addr := by
  by_contra hle
  rw [resolveAddress_of_le c (by omega)] at h
  cases h

/-- What an advance does where the next address exists. -/
theorem commit_advance_of_le (c : Config) {n : Count} {s : State} (w : State) (h : s.nextPc n ≤ 255) :
    commit c n s (.advance w) = w.setPc (BitVec.ofNat 8 (s.nextPc n)) := by
  simp only [commit, resolveAddress_of_le c h]

/-- What an advance does where the next address does not exist: the fault, with none of the writes. -/
theorem commit_advance_of_gt {c : Config} (hc : c.outOfRange = .fault) {n : Count} {s : State} (w : State)
    (h : 255 < s.nextPc n) : commit c n s (.advance w) = s.raise .addressOutOfRange (s.nextPc n) := by
  simp only [commit, resolveAddress_of_gt hc h]

@[simp] theorem commit_override (c : Config) (n : Count) (s w : State) (p : Byte) :
    commit c n s (.override w p) = w.setPc p := rfl

@[simp] theorem commit_halt (c : Config) (n : Count) (s w : State) : commit c n s (.halt w) = w.halt := rfl

@[simp] theorem commit_raise (c : Config) (n : Count) (s : State) (cause : FaultCause) (info : Nat) :
    commit c n s (.raise cause info) = s.raise cause info := rfl

/-- Everything a commit can do: all of the stage's writes with a new `pc` or a halt, or a fault with none of them. -/
theorem commit_cases (c : Config) (n : Count) (s : State) (e : Effect) :
    (∃ w p, (e = .advance w ∨ e = .override w p) ∧ commit c n s e = w.setPc p) ∨
    (∃ w, e = .halt w ∧ commit c n s e = w.halt) ∨
    (∃ w, e = .advance w ∧ 255 < s.nextPc n ∧ commit c n s e = s.raise .addressOutOfRange (s.nextPc n)) ∨
    (∃ cause info, e = .raise cause info ∧ commit c n s e = s.raise cause info) := by
  cases e with
  | advance w =>
    cases h : resolveAddress c (s.nextPc n) with
    | none => exact .inr (.inr (.inl ⟨w, rfl, lt_of_resolveAddress_eq_none h, by simp only [commit, h]⟩))
    | some p => exact .inl ⟨w, p, .inl rfl, by simp only [commit, h]⟩
  | override w p => exact .inl ⟨w, p, .inr rfl, rfl⟩
  | halt w => exact .inr (.inl ⟨w, rfl, rfl⟩)
  | raise cause info => exact .inr (.inr (.inr ⟨cause, info, rfl, rfl⟩))

/-- The count adds at most 3 to `pc + 1`. -/
theorem nextPc_le (s : State) (n : Count) : s.nextPc n ≤ s.pc.toNat + 4 := by
  have := n.isLt
  simp only [State.nextPc]
  omega

end Sys2Proof.Machine
end

