-- ==== Sys2Proof/Laws/Step.lean ====
section
/-! SUPPORT. What `exec` and `step` can do, said once, and that they are the parameterised versions at the one
configuration of the CORE. -/

namespace Sys2Proof.Machine

/-- `exec` is execute, PC update and commit at the default parameters (R85 to R87). -/
theorem exec_eq (i : Instr) (s : State) : exec i s = .next (execWith Config.default i s) := by
  cases i <;> rfl

/-- `step` is the parameterised step at the default parameters (R88). -/
theorem step_eq (s : State) : step s = stepWith Config.default s := by
  cases hr : s.run with
  | running => cases hf : fetch Config.default s <;> simp only [step, stepWith, hr, hf, exec_eq]
  | halted | faulted => simp only [step, stepWith, hr]

/-- Everything a step of a parameterised machine can do when it answers a next state: it was Running, and either the
decode failed and its fault was taken, or the decoded instruction ran. -/
theorem stepWith_cases {c : Config} {s t : State} (h : stepWith c s = .next t) :
    s.run = .running ∧
      ((∃ e, fetch c s = .error e ∧ t = s.raiseDecode e) ∨ (∃ i, fetch c s = .ok i ∧ t = execWith c i s)) := by
  unfold stepWith at h
  cases hr : s.run with
  | halted => rw [hr] at h; cases h
  | faulted => rw [hr] at h; cases h
  | running =>
    rw [hr] at h
    refine ⟨rfl, ?_⟩
    cases hf : fetch c s with
    | error e => rw [hf] at h; cases h; exact .inl ⟨e, rfl, rfl⟩
    | ok i => rw [hf] at h; cases h; exact .inr ⟨i, rfl, rfl⟩

/-- The same of `step`. -/
theorem step_cases {s t : State} (h : step s = .next t) :
    s.run = .running ∧
      ((∃ e, fetch Config.default s = .error e ∧ t = s.raiseDecode e) ∨
        (∃ i, fetch Config.default s = .ok i ∧ t = execWith Config.default i s)) :=
  stepWith_cases (step_eq s ▸ h)

theorem step_of_fetch_ok {s : State} {i : Instr} (hr : s.run = .running) (h : fetch Config.default s = .ok i) :
    step s = exec i s := by
  simp only [step, hr, h]

theorem step_of_fetch_error {s : State} {e : DecodeError} (hr : s.run = .running)
    (h : fetch Config.default s = .error e) : step s = .next (s.raiseDecode e) := by
  simp only [step, hr, h]

/-- The execute stage writes the state and yields one of four effects; which of its writes each instruction makes, said
once: the fields it cannot touch. -/
theorem stage_pc_run_fault {c : Config} {i : Instr} {s w : State}
    (h : stage c i s = .advance w ∨ (∃ p, stage c i s = .override w p) ∨ stage c i s = .halt w) :
    w.pc = s.pc ∧ w.run = s.run ∧ w.fault = s.fault := by
  have key : ∀ e : Effect, stage c i s = e → ∀ w, (e = .advance w ∨ (∃ p, e = .override w p) ∨ e = .halt w) →
      w.pc = s.pc ∧ w.run = s.run ∧ w.fault = s.fault := by
    intro e he w hw
    subst he
    cases i with
    | call n f r =>
      simp only [stage, callStage] at hw
      split at hw
      · simp at hw
      · simp only [Effect.override.injEq, reduceCtorEq, exists_and_left, exists_eq', and_true, false_or, or_false] at hw
        subst hw
        exact ⟨rfl, rfl, rfl⟩
    | jeq n f r | jne n f r | jgt n f r | jlt n f r | jle n f r | jge n f r =>
      simp only [stage, jeqStage, jneStage, jgtStage, jltStage, jleStage, jgeStage, branchStage] at hw
      split at hw <;>
        (simp only [Effect.advance.injEq, Effect.override.injEq, reduceCtorEq, exists_and_left, exists_eq', and_true,
          false_or, or_false, exists_false] at hw; subst hw; exact ⟨rfl, rfl, rfl⟩)
    | hlt n =>
      simp only [stage, hltStage, Effect.halt.injEq, reduceCtorEq, exists_false, false_or] at hw
      subst hw; exact ⟨rfl, rfl, rfl⟩
    | ret n f ig | jmp n f r =>
      simp only [stage, retStage, jmpStage, Effect.override.injEq, reduceCtorEq, exists_and_left, exists_eq', and_true,
        false_or, or_false] at hw
      subst hw; exact ⟨rfl, rfl, rfl⟩
    | ldi n r v | push n r | pop n r | prn n r | add n a b | mul n a b | cmp n a b =>
      simp only [stage, ldiStage, pushStage, popStage, prnStage, addStage, mulStage, cmpStage, Effect.advance.injEq,
        reduceCtorEq, exists_false, or_false] at hw
      subst hw; exact ⟨rfl, rfl, rfl⟩
  exact key _ rfl w h

/-- The byte at distance `k` of those a fetch reads, under the policy `fault`: the cell at `pc + k` where it exists. -/
theorem fetchBytes_getElem? {c : Config} (hc : c.outOfRange = .fault) (s : State) {k : Nat} (hk : k ≤ 2) :
    (fetchBytes c s)[k]? = if s.pc.toNat + k ≤ 255 then some (s.mem.read (s.pc.toNat + k)) else none := by
  have hpc := s.pc.isLt
  have hin : ∀ j, s.pc.toNat + j ≤ 255 → (resolveAddress c (s.pc.toNat + j)).map s.readByte =
      some (s.mem.read (s.pc.toNat + j)) := by
    intro j hj
    rw [resolveAddress_of_le c hj, Option.map_some, State.readByte, BitVec.toNat_ofNat, Nat.mod_eq_of_lt (by omega)]
  have hout : ∀ j, 255 < s.pc.toNat + j → (resolveAddress c (s.pc.toNat + j)).map s.readByte = none := by
    intro j hj
    rw [resolveAddress_of_gt hc hj, Option.map_none]
  have h0 := hin 0 (by omega)
  by_cases h1 : s.pc.toNat + 1 ≤ 255 <;> by_cases h2 : s.pc.toNat + 2 ≤ 255
  · simp only [fetchBytes, List.filterMap_cons, List.filterMap_nil, h0, hin 1 h1, hin 2 h2]
    interval_cases k <;> simp [h1, h2]; omega
  · simp only [fetchBytes, List.filterMap_cons, List.filterMap_nil, h0, hin 1 h1, hout 2 (by omega)]
    interval_cases k <;> simp [h1, h2]; omega
  · omega
  · simp only [fetchBytes, List.filterMap_cons, List.filterMap_nil, h0, hout 1 (by omega), hout 2 (by omega)]
    interval_cases k <;> simp [h1, h2]; omega

end Sys2Proof.Machine
end

