-- ==== Sys2Proof/Laws/Exec.lean ====
section
/-! SUPPORT. The execute stage and the commit put together: what `exec` answers for each outcome of the stage, and what
the stage of an instruction can write. -/

namespace Sys2Proof.Machine

/-- The stage completes, with its writes made in `w`: every outcome but a fault raised inside the stage. -/
def StageWrites (c : Config) (i : Instr) (s w : State) : Prop :=
  stage c i s = .advance w ∨ (∃ p, stage c i s = .override w p) ∨ stage c i s = .halt w

/-- An instruction that advances answers the state after its writes at `pc + 1 + n`, where that address exists. -/
theorem exec_of_advance {i : Instr} {s w : State} (h : stage Config.default i s = .advance w)
    (hle : s.pc.toNat + 1 + i.count.toNat ≤ 255) :
    ∃ q : Byte, q.toNat = s.pc.toNat + 1 + i.count.toNat ∧ exec i s = .next (w.setPc q) := by
  refine ⟨BitVec.ofNat 8 (s.nextPc i.count), ?_, ?_⟩
  · rw [BitVec.toNat_ofNat, State.nextPc]
    omega
  · rw [exec_eq, execWith, h, commit_advance_of_le _ _ hle]

/-- Where the next address does not exist, it takes the fault, with none of its writes (R86, R87). -/
theorem exec_of_advance_gt {i : Instr} {s w : State} (h : stage Config.default i s = .advance w)
    (hgt : 255 < s.pc.toNat + 1 + i.count.toNat) :
    exec i s = .next (s.raise .addressOutOfRange (s.pc.toNat + 1 + i.count.toNat)) := by
  rw [exec_eq, execWith, h, commit_advance_of_gt rfl _ hgt, State.nextPc]

/-- An instruction that overrides the PC answers the state after its writes at its target. -/
theorem exec_of_override {i : Instr} {s w : State} {p : Byte} (h : stage Config.default i s = .override w p) :
    exec i s = .next (w.setPc p) := by
  rw [exec_eq, execWith, h, commit_override]

/-- A next state that is not Faulted holds the writes of the stage: only `pc` and `STATE` were set after them. -/
theorem exec_eq_stage {i : Instr} {s t : State} (he : exec i s = .next t) (hr : t.run ≠ .faulted) :
    ∃ w, StageWrites Config.default i s w ∧
      t.regs = w.regs ∧ t.mem = w.mem ∧ t.flags = w.flags ∧ t.out = w.out ∧ t.fault = w.fault := by
  rw [exec_eq] at he
  cases he
  unfold execWith at *
  rcases commit_cases Config.default i.count s (stage Config.default i s) with
    ⟨w, p, h | h, e⟩ | ⟨w, h, e⟩ | ⟨w, h, _, e⟩ | ⟨_, _, h, e⟩
  · exact ⟨w, .inl h, by simp [e]⟩
  · exact ⟨w, .inr (.inl ⟨p, h⟩), by simp [e]⟩
  · exact ⟨w, .inr (.inr h), by simp [e]⟩
  · exact absurd rfl (e ▸ hr)
  · exact absurd rfl (e ▸ hr)

/-- What the stage of an instruction leaves as it was (R12, R22, R28, R33, R40). -/
structure StageFrame (i : Instr) (s w : State) : Prop where
  regs : s.keepsRegsExcept w i.writtenRegs
  flags : i.op ≠ .cmp → w.flags = s.flags
  store : ∀ a, i.storeAddress s = some a → ∃ v, w.mem = (s.writeByte a v).mem
  mem : i.storeAddress s = none → w.mem = s.mem
  out : i.op ≠ .prn → w.out = s.out

theorem stageFrame_push (n : Count) (r : Reg) (s : State) (v : Byte) :
    StageFrame (.push n r) s (s.decrementSp.writeByte s.pushAddress v) where
  regs q hq := by
    have hq : q ≠ 7 := by simpa [Instr.writtenRegs, spIndex] using hq
    rw [State.reg_writeByte, State.reg_decrementSp, if_neg hq]
  flags _ := rfl
  store a ha := by cases ha; exact ⟨v, rfl⟩
  mem h := by cases h
  out _ := rfl

/-- Everything a stage that completes can write. -/
theorem stage_frame {c : Config} {i : Instr} {s w : State} (h : StageWrites c i s w) : StageFrame i s w := by
  unfold StageWrites at h
  cases i with
  | call n f r =>
    simp only [stage, callStage] at h
    split at h
    · simp at h
    · simp only [Effect.override.injEq, reduceCtorEq, exists_and_left, exists_eq', and_true, false_or, or_false] at h
      subst h
      refine ⟨fun q hq => ?_, fun _ => rfl, fun a ha => ?_, fun h => (by cases h), fun _ => rfl⟩
      · have hq : q ≠ 7 := by simpa [Instr.writtenRegs, spIndex] using hq
        rw [State.reg_decrementSp, if_neg hq, State.reg_writeByte]
      · cases ha; exact ⟨_, rfl⟩
  | push n r =>
    simp only [stage, pushStage, Effect.advance.injEq, reduceCtorEq, exists_false, or_false] at h
    subst h
    rw [State.sp_decrementSp]
    exact stageFrame_push n r s _
  | jeq n f r | jne n f r | jgt n f r | jlt n f r | jle n f r | jge n f r =>
    simp only [stage, jeqStage, jneStage, jgtStage, jltStage, jleStage, jgeStage, branchStage] at h
    split at h <;> simp at h <;> subst h <;>
      exact ⟨fun _ _ => rfl, fun _ => rfl, fun a ha => (by cases ha), fun _ => rfl, fun _ => rfl⟩
  | prn n r =>
    simp [stage, prnStage] at h; subst h
    exact ⟨fun _ _ => rfl, fun _ => rfl, fun a ha => (by cases ha), fun _ => rfl, fun h => absurd rfl h⟩
  | cmp n a b =>
    simp [stage, cmpStage] at h; subst h
    exact ⟨fun _ _ => rfl, fun h => absurd rfl h, fun a ha => (by cases ha), fun _ => rfl, fun _ => rfl⟩
  | hlt n | jmp n f r =>
    simp [stage, hltStage, jmpStage] at h; subst h
    exact ⟨fun _ _ => rfl, fun _ => rfl, fun a ha => (by cases ha), fun _ => rfl, fun _ => rfl⟩
  | ret n f ig | ldi n r v | pop n r | add n a b | mul n a b =>
    simp [stage, retStage, ldiStage, popStage, addStage, mulStage] at h; subst h
    refine ⟨fun q hq => ?_, fun _ => rfl, fun a ha => (by cases ha), fun _ => rfl, fun _ => rfl⟩
    simp [Instr.writtenRegs, spIndex] at hq
    simp [State.reg_incrementSp, State.reg_setReg, hq]

/-- Registers and memory bytes are read from the fields alone. -/
theorem reg_congr {t w : State} (h : t.regs = w.regs) (q : Reg) : t.reg q = w.reg q := by
  simp only [State.reg, h]

theorem readByte_congr {t w : State} (h : t.mem = w.mem) (a : Byte) : t.readByte a = w.readByte a := by
  simp only [State.readByte, h]

/-- A comparison leaves exactly one flag set (R29, R103). -/
theorem compareBytes_legal (x y : Byte) : (compareBytes x y).legal = true ∧ compareBytes x y ≠ Flags.empty := by
  unfold compareBytes
  split
  · decide
  · split <;> decide

end Sys2Proof.Machine
end

