-- ==== Sys2Proof/Laws/Fetch.lean ====
section
/-! SUPPORT. Fetch and decode at the program counter: which bytes a fetch gives the decoder (R43, R84), and what of them
the decoder looks at. -/

namespace Sys2Proof.Machine

/-- A byte of the instruction that exists is the cell it stands in. -/
theorem fetchBytes_of_le (s : State) {k : Nat} (hk : k ≤ 2) (h : s.pc.toNat + k ≤ 255) :
    (fetchBytes Config.default s)[k]? = some (s.mem.read (s.pc.toNat + k)) := by
  rw [fetchBytes_getElem? rfl s hk, if_pos h]

/-- A byte beyond 255 is not among those fetched. -/
theorem fetchBytes_of_gt (s : State) {k : Nat} (hk : k ≤ 2) (h : 255 < s.pc.toNat + k) :
    (fetchBytes Config.default s)[k]? = none := by
  rw [fetchBytes_getElem? rfl s hk, if_neg (by omega)]

/-- The first byte fetched is the instruction byte, in every configuration (R81). -/
theorem fetchBytes_cons (c : Config) (s : State) : ∃ rest, fetchBytes c s = s.ir :: rest := by
  have h : (resolveAddress c (s.pc.toNat + 0)).map s.readByte = some s.ir := by
    rw [resolveAddress_of_le c (by have := s.pc.isLt; omega)]
    simp [State.ir]
  rw [fetchBytes, List.filterMap_cons, h]
  exact ⟨_, rfl⟩

/-- A fetch is the table lookup of the instruction byte, then the operand read (R82 to R84). -/
theorem fetch_eq (c : Config) (s : State) : fetch c s = match selectOp c s.ir with
    | none => .error (.invalidInstruction s.ir)
    | some o => readOperands c (irCount s.ir) (irAlu s.ir) (fetchBytes c s) o := by
  obtain ⟨rest, h⟩ := fetchBytes_cons c s
  have key : ∀ bytes, bytes = s.ir :: rest → decode c bytes = match selectOp c s.ir with
      | none => .error (.invalidInstruction s.ir)
      | some o => readOperands c (irCount s.ir) (irAlu s.ir) bytes o := by
    rintro _ rfl
    rfl
  exact key _ h

theorem operandByte_congr {b b' : List Byte} {k : Nat} (h : b[k]? = b'[k]?) : operandByte b k = operandByte b' k := by
  simp only [operandByte, h]

theorem operandReg_congr {b b' : List Byte} {k : Nat} (h : b[k]? = b'[k]?) : operandReg b k = operandReg b' k := by
  simp only [operandReg, operandByte_congr h]

/-- The operand read looks at the bytes at distance 1 and 2 and at no others (R65, R84). -/
theorem readOperands_congr (c : Config) (n : Count) (f : Bool) {b b' : List Byte} (h1 : b[1]? = b'[1]?)
    (h2 : b[2]? = b'[2]?) (o : Op) : readOperands c n f b o = readOperands c n f b' o := by
  cases o <;>
    simp only [readOperands, readF1R, readF2RR, readF2RI, readF0S, operandReg_congr h1, operandReg_congr h2,
      operandByte_congr h2]

/-- Operand 1 as a register reference: its bits are checked where its address exists (R84). -/
theorem operandReg_one_of_le {s : State} (h : s.pc.toNat ≤ 254) :
    operandReg (fetchBytes Config.default s) 1 = regRef (s.mem.read (s.pc.toNat + 1)) := by
  rw [operandReg, operandByte_of_get (fetchBytes_of_le s (by omega) (by omega))]

theorem operandReg_one_of_eq {s : State} (h : s.pc.toNat = 255) :
    operandReg (fetchBytes Config.default s) 1 = .error (.missingByte 1) := by
  rw [operandReg, operandByte_of_none (fetchBytes_of_gt s (by omega) (by omega))]

/-- Operand 2 as a register reference (R84). -/
theorem operandReg_two_of_le {s : State} (h : s.pc.toNat ≤ 253) :
    operandReg (fetchBytes Config.default s) 2 = regRef (s.mem.read (s.pc.toNat + 2)) := by
  rw [operandReg, operandByte_of_get (fetchBytes_of_le s (by omega) (by omega))]

theorem operandReg_two_of_ge {s : State} (h : 254 ≤ s.pc.toNat) :
    operandReg (fetchBytes Config.default s) 2 = .error (.missingByte 2) := by
  rw [operandReg, operandByte_of_none (fetchBytes_of_gt s (by omega) (by omega))]

/-- Operand 2 as an immediate byte: only its address is checked (R64, R84). -/
theorem operandByte_two_of_le {s : State} (h : s.pc.toNat ≤ 253) :
    operandByte (fetchBytes Config.default s) 2 = .ok (s.mem.read (s.pc.toNat + 2)) :=
  operandByte_of_get (fetchBytes_of_le s (by omega) (by omega))

theorem operandByte_two_of_ge {s : State} (h : 254 ≤ s.pc.toNat) :
    operandByte (fetchBytes Config.default s) 2 = .error (.missingByte 2) :=
  operandByte_of_none (fetchBytes_of_gt s (by omega) (by omega))

/-- Whatever an operand read answers, the instruction it gives is the selected one with the count it was given. -/
theorem op_of_readOperands {c : Config} {n : Count} {f : Bool} {bytes : List Byte} {o : Op} {i : Instr}
    (h : readOperands c n f bytes o = .ok i) : i.op = o ∧ i.count = n := by
  cases o <;> simp only [readOperands, readF1R, readF2RR, readF2RI, readF0S] at h <;> (repeat' (split at h)) <;>
    first | (cases h; done) | (cases h; exact ⟨rfl, rfl⟩)

/-- What a fetched instruction says of the instruction byte (R67). -/
theorem op_of_fetch {c : Config} {s : State} {i : Instr} (h : fetch c s = .ok i) :
    selectOp c s.ir = some i.op ∧ i.count = irCount s.ir := by
  rw [fetch_eq] at h
  cases hs : selectOp c s.ir with
  | none => rw [hs] at h; cases h
  | some o =>
    rw [hs] at h
    obtain ⟨rfl, hn⟩ := op_of_readOperands h
    exact ⟨rfl, hn⟩

/-- A failed decode takes one of the three faults that a decode can raise, with nothing else changed (R83, R84). -/
theorem raiseDecode_eq (s : State) (e : DecodeError) : ∃ cause info, s.raiseDecode e = s.raise cause info ∧
    (cause = .invalidInstruction ∨ cause = .invalidRegisterReference ∨ cause = .addressOutOfRange) := by
  cases e <;> exact ⟨_, _, rfl, by simp⟩

end Sys2Proof.Machine
end

