-- ==== Sys2Proof/Laws/PerInstr.lean ====
section
/-! SUPPORT. Facts about instructions as syntax, one lemma per constructor. -/

namespace Sys2Proof.Laws.OperandRead

/-- Reading the operands back from the bytes the encoder writes for them, whatever instruction byte stands before them
and whatever follows, gives the instruction (R65, R84). -/
def Statement (i : Instr) : Prop :=
  ∀ (c : Config) (ir : Byte) (rest : List Byte), i.retWellFormed c = true →
    readOperands c i.count i.aluFlag (ir :: (i.operandBytes ++ rest)) i.op = .ok i

theorem readF1R_operandBytes (ir : Byte) (r : Reg) (rest : List Byte) (mk : Reg → Instr) :
    readF1R (ir :: regByte r :: rest) mk = .ok (mk r) := by
  simp [readF1R, operandReg, operandByte]

theorem readF2RR_operandBytes (ir : Byte) (a b : Reg) (rest : List Byte) (mk : Reg → Reg → Instr) :
    readF2RR (ir :: regByte a :: regByte b :: rest) mk = .ok (mk a b) := by
  simp [readF2RR, operandReg, operandByte]

theorem hlt (n : Count) : Statement (.hlt n) := fun _ _ _ _ => rfl

theorem ldi (n : Count) (r : Reg) (imm : Byte) : Statement (.ldi n r imm) := fun c ir rest _ => by
  simp [readOperands, readF2RI, operandReg, operandByte, Instr.op, Instr.operandBytes, Instr.count]

theorem push (n : Count) (r : Reg) : Statement (.push n r) := fun _ ir rest _ => readF1R_operandBytes ir r rest _
theorem pop (n : Count) (r : Reg) : Statement (.pop n r) := fun _ ir rest _ => readF1R_operandBytes ir r rest _
theorem prn (n : Count) (r : Reg) : Statement (.prn n r) := fun _ ir rest _ => readF1R_operandBytes ir r rest _
theorem add (n : Count) (a b : Reg) : Statement (.add n a b) := fun _ ir rest _ => readF2RR_operandBytes ir a b rest _
theorem mul (n : Count) (a b : Reg) : Statement (.mul n a b) := fun _ ir rest _ => readF2RR_operandBytes ir a b rest _
theorem cmp (n : Count) (a b : Reg) : Statement (.cmp n a b) := fun _ ir rest _ => readF2RR_operandBytes ir a b rest _
theorem call (n : Count) (f : Bool) (r : Reg) : Statement (.call n f r) :=
  fun _ ir rest _ => readF1R_operandBytes ir r rest _

theorem ret (n : Count) (f : Bool) (ignored : Option Reg) : Statement (.ret n f ignored) := fun c ir rest h => by
  have hc : ignored.isSome = c.retDecodesOperand := by simpa [Instr.retWellFormed] using h
  cases ignored with
  | none =>
    simp only [readOperands, readF0S, Instr.op, Instr.count, Instr.aluFlag]
    rw [← hc]
    rfl
  | some r =>
    simp only [readOperands, readF0S, Instr.op, Instr.count, Instr.aluFlag, Instr.operandBytes]
    rw [← hc]
    simp [operandReg, operandByte]

theorem jmp (n : Count) (f : Bool) (r : Reg) : Statement (.jmp n f r) :=
  fun _ ir rest _ => readF1R_operandBytes ir r rest _
theorem jeq (n : Count) (f : Bool) (r : Reg) : Statement (.jeq n f r) :=
  fun _ ir rest _ => readF1R_operandBytes ir r rest _
theorem jne (n : Count) (f : Bool) (r : Reg) : Statement (.jne n f r) :=
  fun _ ir rest _ => readF1R_operandBytes ir r rest _
theorem jgt (n : Count) (f : Bool) (r : Reg) : Statement (.jgt n f r) :=
  fun _ ir rest _ => readF1R_operandBytes ir r rest _
theorem jlt (n : Count) (f : Bool) (r : Reg) : Statement (.jlt n f r) :=
  fun _ ir rest _ => readF1R_operandBytes ir r rest _
theorem jle (n : Count) (f : Bool) (r : Reg) : Statement (.jle n f r) :=
  fun _ ir rest _ => readF1R_operandBytes ir r rest _
theorem jge (n : Count) (f : Bool) (r : Reg) : Statement (.jge n f r) :=
  fun _ ir rest _ => readF1R_operandBytes ir r rest _

end Sys2Proof.Laws.OperandRead
end

