-- ==== Sys2Proof/Tests/Slice0.lean ====
section
/-! SUPPORT. Tests with expected results from spec/95_test_vectors.md or written out from the encoding of R61 and R66, and a
witness for the hypotheses of every statement, clause by clause at the boundaries of its ranges. -/

namespace Sys2Proof.Tests
open Sys2Proof.Machine

/-! ## Helpers -/

/-- The reset state with bytes placed at an address and `pc` there. -/
def codeAt (pc : Byte) (bytes : List Byte) : State :=
  { State.reset with pc := pc, mem := Memory.place [] pc.toNat bytes }

/-- The next state of an outcome, if it is one. -/
def next? : Host.Outcome State Fault Refusal → Option State
  | .next t => some t
  | .fault _ => none
  | .refused _ => none

/-- The state after an instruction, or the one before it where there is none. -/
def after (i : Instr) (s : State) : State := (next? (exec i s)).getD s

/-- The state after a step, or the one before it where there is none. -/
def stepped (s : State) : State := (next? (step s)).getD s

/-- The fault a step takes, if it takes one. -/
def faultOf (s : State) : Option FaultRecord := (next? (step s)).bind (·.fault)

def flagsL : Flags := ⟨true, false, false⟩
def flagsE : Flags := ⟨false, true, false⟩
def flagsG : Flags := ⟨false, false, true⟩

def strictConfig : Config := { Config.default with strictDecode := true }
def wrapConfig : Config := { Config.default with outOfRange := .wrap }
def bareRetConfig : Config := { Config.default with retDecodesOperand := false }
def noOpcodes : Config := { Config.default with opcodes := [] }

/-! ## WellFormed refuses ill-formed terms -/

theorem test_wellFormed_ret_without_operand : (Instr.ret 0 false none).wellFormed Config.default = false := by decide
theorem test_wellFormed_ret_with_operand : (Instr.ret 0 false (some 3)).wellFormed bareRetConfig = false := by decide
theorem test_wellFormed_count : (Instr.ldi 0 1 7).wellFormed strictConfig = false := by decide
theorem test_wellFormed_aluFlag : (Instr.call 1 true 1).wellFormed strictConfig = false := by decide
theorem test_wellFormed_accepts : (Instr.ldi 0 1 7).wellFormed Config.default = true ∧
    (Instr.call 1 true 1).wellFormed Config.default = true ∧ (Instr.ldi 2 1 7).wellFormed strictConfig = true ∧
    (Instr.ret 0 false none).wellFormed bareRetConfig = true := by decide

/-! ## Decoding, words written out bit by bit: `n` (2 bits), `A`, `S`, `op` (4 bits); then `00000` and a register -/

theorem test_decode_hlt : decode Config.default [0b00000001] = .ok (.hlt 0) := by decide
theorem test_decode_ldi : decode Config.default [0b10000010, 0b00000001, 0b11001000] = .ok (.ldi 2 1 200) := by decide
theorem test_decode_push : decode Config.default [0b01000101, 0b00000110] = .ok (.push 1 6) := by decide
theorem test_decode_pop : decode Config.default [0b01000110, 0b00000010] = .ok (.pop 1 2) := by decide
theorem test_decode_prn : decode Config.default [0b01000111, 0b00000101] = .ok (.prn 1 5) := by decide
theorem test_decode_add : decode Config.default [0b10100000, 0b00000001, 0b00000010] = .ok (.add 2 1 2) := by decide
theorem test_decode_mul : decode Config.default [0b10100010, 0b00000011, 0b00000100] = .ok (.mul 2 3 4) := by decide
theorem test_decode_cmp : decode Config.default [0b10100111, 0b00000111, 0b00000000] = .ok (.cmp 2 7 0) := by decide
theorem test_decode_call : decode Config.default [0b01010000, 0b00000001] = .ok (.call 1 false 1) := by decide
theorem test_decode_ret : decode Config.default [0b00010001, 0b00000100] = .ok (.ret 0 false (some 4)) := by decide
theorem test_decode_jmp : decode Config.default [0b01010100, 0b00000011] = .ok (.jmp 1 false 3) := by decide
theorem test_decode_jeq : decode Config.default [0b01010101, 0b00000011] = .ok (.jeq 1 false 3) := by decide
theorem test_decode_jne : decode Config.default [0b01010110, 0b00000011] = .ok (.jne 1 false 3) := by decide
theorem test_decode_jgt : decode Config.default [0b01010111, 0b00000011] = .ok (.jgt 1 false 3) := by decide
theorem test_decode_jlt : decode Config.default [0b01011000, 0b00000011] = .ok (.jlt 1 false 3) := by decide
theorem test_decode_jle : decode Config.default [0b01011001, 0b00000011] = .ok (.jle 1 false 3) := by decide
theorem test_decode_jge : decode Config.default [0b01011010, 0b00000011] = .ok (.jge 1 false 3) := by decide

/-- Section 2.1: `S` wins over `A`, and a count that is not canonical keeps the instruction. -/
theorem test_decode_noncanonical :
    decode Config.default [0b01110001, 0] = .ok (.ret 1 true (some 0)) ∧
    decode Config.default [0b00000010, 1, 7] = .ok (.ldi 0 1 7) ∧
    decode Config.default [0b11000111, 1] = .ok (.prn 3 1) ∧
    decode Config.default [0b00110000, 1] = .ok (.call 0 true 1) ∧
    decode Config.default [0b01000001] = .ok (.hlt 1) := by decide

/-- Section 2.1: bytes that are no instruction, and those that `STRICT_DECODE` refuses besides. -/
theorem test_decode_rejects :
    (∀ b ∈ [(0x00 : Byte), 0x52, 0xA1, 0x03], decode Config.default [b, 0, 0] = .error (.invalidInstruction b)) ∧
    (∀ b ∈ [(0x71 : Byte), 0x02, 0xC7, 0x30, 0x41], decode strictConfig [b, 0, 0] = .error (.invalidInstruction b)) ∧
    decode strictConfig [0xA7, 1, 2] = .ok (.cmp 2 1 2) := by decide

/-- Section 2.2: register references, and LDI's immediate, which is not one. -/
theorem test_decode_registers :
    (∀ b ∈ [(0x08 : Byte), 0x0F, 0x80, 0xFF],
      decode Config.default [0x82, b, 5] = .error (.invalidRegisterReference b)) ∧
    decode Config.default [0x47, 0x07] = .ok (.prn 1 7) ∧
    decode Config.default [0x82, 1, 0xFF] = .ok (.ldi 2 1 255) := by decide

/-- The host's numbering of a table word: the first byte is the lowest. -/
theorem test_decodeTableWord :
    decodeTableWord 24 0xC80182 = some (.ldi 2 1 200) ∧ decodeTableWord 8 0xFFFF82 = some (.ldi 2 0 0) ∧
    decodeTableWord 8 0x00 = none := by decide

/-! ## Execution, one step each: sections 2.3 to 2.5 of spec/95_test_vectors.md -/

theorem test_add_wraps : (stepped (((codeAt 0 [0xA0, 1, 2]).setReg 1 255).setReg 2 2)).reg 1 = 1 := by decide
theorem test_add_same_register : (stepped ((codeAt 0 [0xA0, 0, 0]).setReg 0 100)).reg 0 = 200 := by decide
theorem test_mul_wraps : (stepped (((codeAt 0 [0xA2, 1, 2]).setReg 1 255).setReg 2 255)).reg 1 = 1 := by decide
theorem test_mul_low_byte : (stepped (((codeAt 0 [0xA2, 0, 1]).setReg 0 16).setReg 1 17)).reg 0 = 16 := by decide
theorem test_cmp_is_unsigned :
    (stepped (((codeAt 0 [0xA7, 0, 1]).setReg 0 0x80).setReg 1 1)).flags = flagsG := by decide
theorem test_cmp_less : (stepped ((codeAt 0 [0xA7, 0, 1]).setReg 1 255)).flags = flagsL := by decide
theorem test_ldi_sets_sp : (stepped (codeAt 0 [0x82, 7, 9])).sp = 9 := by decide
theorem test_ldi_noncanonical_advance :
    (stepped (codeAt 60 [0x02, 1, 7])).reg 1 = 7 ∧ (stepped (codeAt 60 [0x02, 1, 7])).pc = 61 := by decide
theorem test_prn_outputs : (stepped ((codeAt 60 [0xC7, 1]).setReg 1 9)).out = [9] := by decide
theorem test_prn_faulting_outputs_nothing :
    (stepped (codeAt 254 [0x47, 0])).out = [] ∧
    faultOf (codeAt 254 [0x47, 0]) = some ⟨.addressOutOfRange, 254, 256⟩ := by decide
theorem test_push_wraps_sp :
    let t := stepped (((codeAt 0 [0x45, 0]).setReg 0 0x5A).setReg 7 0)
    t.sp = 0xFF ∧ t.readByte 0xFF = 0x5A := by decide
theorem test_push_sp_stores_the_new_sp :
    let t := stepped (codeAt 0 [0x45, 7])
    t.sp = 0xF2 ∧ t.readByte 0xF2 = 0xF2 := by decide
theorem test_pop_loads :
    let t := stepped (((codeAt 0 [0x46, 2]).setReg 7 0xF2).writeByte 0xF2 16)
    t.reg 2 = 16 ∧ t.sp = 0xF3 ∧ t.readByte 0xF2 = 16 := by decide
theorem test_pop_sp_leaves_the_byte_plus_one :
    (stepped (((codeAt 0 [0x46, 7]).setReg 7 0xF2).writeByte 0xF2 0x40)).sp = 0x41 := by decide
theorem test_hlt_at_255 : (stepped (codeAt 255 [0x01])).run = .halted ∧ (stepped (codeAt 255 [0x01])).pc = 255 := by
  decide
theorem test_call_r7_jumps_to_the_new_sp :
    let t := stepped (codeAt 10 [0x50, 7])
    t.readByte 0xF2 = 12 ∧ t.sp = 0xF2 ∧ t.pc = 0xF2 := by decide
theorem test_call_pushes_pc_plus_two_whatever_n_is :
    let t := stepped ((codeAt 60 [0x30, 1]).setReg 1 9)
    t.readByte 0xF2 = 62 ∧ t.pc = 9 := by decide
theorem test_ret_wraps_sp :
    let t := stepped ((codeAt 30 [0x11, 0]).setReg 7 0xFF)
    t.pc = 0 ∧ t.sp = 0 := by decide
theorem test_ret_checks_the_next_byte :
    faultOf (codeAt 30 [0x11, 0x82]) = some ⟨.invalidRegisterReference, 30, 0x82⟩ ∧
    (next? (stepWith bareRetConfig (((codeAt 30 [0x11, 0x82]).setReg 7 0xF2).writeByte 0xF2 8))).map (·.pc) = some 8 := by
  decide
theorem test_jmp : (stepped ((codeAt 20 [0x54, 3]).setReg 3 40)).pc = 40 := by decide

/-- The new `pc` of a branch to 40 at 20 under {}, {L}, {E} and {G}. -/
def branchRow (op : Byte) : List Byte :=
  [Flags.empty, flagsL, flagsE, flagsG].map fun f => (stepped (((codeAt 20 [op, 3]).setReg 3 40).setFlags f)).pc

/-! The table of section 2.4, one branch a theorem. -/

theorem test_jeq : branchRow 0x55 = [22, 22, 40, 22] := by decide
theorem test_jne : branchRow 0x56 = [40, 40, 22, 40] := by decide
theorem test_jge : branchRow 0x5A = [22, 22, 40, 40] := by decide
theorem test_jgt : branchRow 0x57 = [22, 22, 22, 40] := by decide
theorem test_jle : branchRow 0x59 = [22, 40, 40, 22] := by decide
theorem test_jlt : branchRow 0x58 = [22, 40, 22, 22] := by decide

/-- The branch at the top of memory of section 2.4: not taken it faults, taken it does not. -/
theorem test_branch_at_254 :
    faultOf ((codeAt 254 [0x56, 3]).setFlags flagsE) = some ⟨.addressOutOfRange, 254, 256⟩ ∧
    (stepped (((codeAt 254 [0x56, 3]).setFlags flagsL).setReg 3 7)).pc = 7 := by decide

/-- The faults and priorities of section 2.6. -/
theorem test_fault_priority :
    faultOf (codeAt 0 [0xA5, 9, 9]) = some ⟨.invalidInstruction, 0, 0xA5⟩ ∧
    faultOf (codeAt 254 [0xA0, 9]) = some ⟨.invalidRegisterReference, 254, 9⟩ ∧
    faultOf (codeAt 254 [0xA0, 1]) = some ⟨.addressOutOfRange, 254, 256⟩ ∧
    faultOf (codeAt 254 [0xC7, 0]) = some ⟨.addressOutOfRange, 254, 258⟩ ∧
    faultOf (codeAt 3 [0]) = some ⟨.invalidInstruction, 3, 0⟩ := by decide

/-- Nothing else changes when a fault is taken (R176). -/
theorem test_fault_keeps_the_rest :
    let s := codeAt 254 [0xA0, 1]
    stepped s = { s with run := .faulted, fault := some ⟨.addressOutOfRange, 254, 256⟩ } := by decide

/-! ## Reset, load and what the host sees -/

/-- The reset values of R200. -/
theorem test_reset :
    State.reset.regs = #v[0, 0, 0, 0, 0, 0, 0, 0xF3] ∧ State.reset.pc = 0 ∧ State.reset.flags.bits = 0 ∧
    State.reset.mem.wf = true ∧ State.reset.readByte 255 = 0 ∧ State.reset.status = (.running, none) ∧
    State.reset.out = [] ∧ State.reset.legal = true := by decide

theorem test_boot_refuses_a_wide_word : boot [256] = none := by decide

theorem test_boot_refuses_a_long_image : imageFits (List.replicate 257 0) = false := by
  rw [imageFits, List.length_replicate]
  rfl

/-- An empty image: the first step faults with `InvalidInstruction(0)` (R204). -/
theorem test_boot_empty : (boot []).bind faultOf = some ⟨.invalidInstruction, 0, 0⟩ := by decide

theorem test_render : renderByte 17 = ['1', '7', '\n'] ∧ renderByte 0 = ['0', '\n'] ∧
    renderByte 255 = ['2', '5', '5', '\n'] := by decide

theorem test_runEnd :
    State.reset.runEnd = none ∧ (stepped (codeAt 3 [0])).runEnd = some (.faulted [] (some ⟨.invalidInstruction, 3, 0⟩)) ∧
    (stepped (codeAt 3 [0])).faultCode = 1 := by decide

/-! ## Witnesses: for the hypotheses of each statement -/

/-- A step of a Running machine answers a next state. -/
theorem step_eq_stepped {s : State} (h : (next? (step s)).isSome = true) : step s = .next (stepped s) := by
  unfold stepped
  revert h
  cases step s <;> simp [next?]

theorem exec_eq_after {i : Instr} {s : State} : exec i s = .next (after i s) := by
  unfold after
  rw [exec_eq]
  rfl

theorem witness_BootIsResetWithTheImageAtZero :
    (List.replicate 256 255).length ≤ 256 ∧ (∀ w ∈ List.replicate 256 255, w ≤ 255) ∧
    256 < (List.replicate 257 0).length ∧ ∃ w ∈ [256], 255 < w :=
  ⟨by rw [List.length_replicate], fun _ hw => (List.eq_of_mem_replicate hw).le, by rw [List.length_replicate]; decide,
    by decide⟩

theorem witness_ResetAndBootedStatesAreLegal : (bootWith wrapConfig [0x01]).isSome = true := by decide

theorem witness_StepKeepsLegal :
    State.reset.legal = true ∧ step State.reset = .next (stepped State.reset) :=
  ⟨by decide, step_eq_stepped (by decide)⟩

theorem witness_CanonicalMemoriesAreDeterminedByTheirReads :
    let m : Memory := [(0, 1), (255, 2)]
    let m' : Memory := Memory.write (Memory.write [] 255 2) 0 1
    m.wf = true ∧ m'.wf = true ∧ ∀ a : Byte, m.read a.toNat = m'.read a.toNat := by decide

theorem witness_DecodeInvertsEncode :
    (Config.default.Valid ∧ (Instr.cmp 3 7 7).wellFormed Config.default = true) ∧
    (strictConfig.Valid ∧ (Instr.jge 1 false 7).wellFormed strictConfig = true) ∧
    (bareRetConfig.Valid ∧ (Instr.ret 3 true none).wellFormed bareRetConfig = true) := by decide

theorem witness_DecodedBytesAreTheEncoding :
    Config.default.Valid ∧ decode Config.default [0x11, 7, 0xFF] = .ok (.ret 0 false (some 7)) := by decide

theorem witness_LookupIsByMatchAndMask :
    (Config.default.Valid ∧ Config.default.strictDecode = false) ∧
    (strictConfig.Valid ∧ strictConfig.strictDecode = true) ∧ selectOp noOpcodes 0x01 = none := by decide

/-- The longest instruction that fits, at 253, and a one-byte instruction at 255. -/
theorem witness_StepRunsTheDecodedInstruction :
    ((codeAt 253 [0x82, 1, 9]).run = .running ∧ (codeAt 253 [0x82, 1, 9]).bytesAt [0x82, 1, 9] ∧
      decode Config.default [0x82, 1, 9] = .ok (.ldi 2 1 9)) ∧
    ((codeAt 255 [0x01]).run = .running ∧ (codeAt 255 [0x01]).bytesAt [0x01] ∧
      decode Config.default [0x01] = .ok (.hlt 0)) := by
  unfold State.bytesAt
  decide

theorem witness_StepExistsExactlyWhileRunning :
    State.reset.halt.run = .halted ∧ (State.reset.raise .invalidInstruction 0).run = .faulted ∧
    (State.reset.halt.accept (.reset [1])).isSome = true := by decide

/-- A step to each of the three run states, and each outcome of the execute stage. -/
theorem witness_RunStateTransitions :
    let a := codeAt 252 [0x82, 1, 9]
    let b := codeAt 253 [0x82, 1, 9]
    let j := codeAt 0 [0x54, 1]
    let h := codeAt 255 [0x01]
    let c := codeAt 254 [0x50, 1]
    let z := State.reset
    (∀ s ∈ [a, b, j, h, c, z], (next? (step s)).isSome = true ∧ s.fault = none) ∧
    ((stepped a).run = .running ∧ fetch Config.default a = .ok (.ldi 2 1 9)) ∧
    ((stepped b).run = .faulted ∧ fetch Config.default b = .ok (.ldi 2 1 9)) ∧
    fetch Config.default j = .ok (.jmp 1 false 1) ∧ fetch Config.default h = .ok (.hlt 0) ∧
    fetch Config.default c = .ok (.call 1 false 1) ∧ fetch Config.default z = .error (.invalidInstruction 0) := by decide

/-- At 253, where the placed bytes just fit, and at 254, where they are placed at 0. -/
theorem witness_PlacedWordIsRunNext :
    decodeTableWord 24 0xC80182 = some (.ldi 2 1 200) ∧ (codeAt 253 []).mem.wf = true ∧ (codeAt 254 []).mem.wf = true ∧
    ((codeAt 253 []).withFetchWord 24 0xC80182).pc = 253 ∧ ((codeAt 254 []).withFetchWord 24 0xC80182).pc = 0 := by
  decide

/-- A byte of each category whose `op` is the smallest and one whose `op` is the largest illegal value. -/
theorem witness_IllegalEncodingsRaiseInvalidInstruction :
    (∀ b ∈ [(0x00 : Byte), 0x4F], (codeAt 9 [b]).run = .running ∧ irSpecial (codeAt 9 [b]).ir = false ∧
      irAlu (codeAt 9 [b]).ir = false ∧
      (irOp (codeAt 9 [b]).ir).toNat ∈ [0, 3, 4, 8, 9, 10, 11, 12, 13, 14, 15]) ∧
    (∀ b ∈ [(0xA1 : Byte), 0x2F], irSpecial (codeAt 9 [b]).ir = false ∧ irAlu (codeAt 9 [b]).ir = true ∧
      (irOp (codeAt 9 [b]).ir).toNat ∈ [1, 3, 4, 5, 6, 8, 9, 10, 11, 12, 13, 14, 15]) ∧
    (∀ b ∈ [(0x52 : Byte), 0x3F], irSpecial (codeAt 9 [b]).ir = true ∧
      (irOp (codeAt 9 [b]).ir).toNat ∈ [2, 3, 11, 12, 13, 14, 15]) := by decide

theorem witness_InternalFaultsAreUnreachable :
    (irSpecial (codeAt 9 [0xAF]).ir = false ∧ irAlu (codeAt 9 [0xAF]).ir = true ∧
      (irOp (codeAt 9 [0xAF]).ir).toNat ∉ [0, 2, 7]) ∧
    (irSpecial (codeAt 60 [0x52]).ir = true ∧ (irOp (codeAt 60 [0x52]).ir).toNat ∈ [2, 3, 11, 12, 13, 14, 15]) ∧
    (step (codeAt 9 [0xAF]) = .next (stepped (codeAt 9 [0xAF])) ∧ (stepped (codeAt 9 [0xAF])).run = .faulted ∧
      (stepped (codeAt 9 [0xAF])).fault = some ⟨.invalidInstruction, 9, 0xAF⟩) :=
  ⟨by decide, by decide, step_eq_stepped (by decide), by decide, by decide⟩

/-- Each stage, at its boundary: no table entry; operand 1 at 256 and a first operand byte of 8; operand 2 at 256 after
a first operand byte of 7, and a second of 8; CALL at 254; an advance to 256 and one to 258. -/
theorem witness_FirstFaultInStageOrder :
    selectOp Config.default (codeAt 0 [0x03]).ir = none ∧
    (selectOp Config.default (codeAt 255 [0x82]).ir = some .ldi ∧ Op.ldi.format ≠ .f0 ∧ (codeAt 255 [0x82]).pc.toNat = 255) ∧
    ((codeAt 254 [0x45, 8]).pc.toNat ≤ 254 ∧ 8 ≤ ((codeAt 254 [0x45, 8]).mem.read 255).toNat) ∧
    (Op.ldi.format = .f2ri ∧ (codeAt 254 [0x82, 7]).pc.toNat = 254 ∧ ((codeAt 254 [0x82, 7]).mem.read 255).toNat < 8) ∧
    (selectOp Config.default (codeAt 253 [0xA0, 7, 8]).ir = some .add ∧ Op.add.format = .f2rr ∧
      ((codeAt 253 [0xA0, 7, 8]).mem.read 254).toNat < 8 ∧ 8 ≤ ((codeAt 253 [0xA0, 7, 8]).mem.read 255).toNat) ∧
    (fetch Config.default (codeAt 254 [0x50, 7]) = .ok (.call 1 false 7) ∧ (codeAt 254 [0x50, 7]).pc.toNat = 254) ∧
    (fetch Config.default (codeAt 253 [0x82, 7, 0]) = .ok (.ldi 2 7 0) ∧ (Instr.ldi 2 7 0).advances Flags.empty = true ∧
      255 < (codeAt 253 [0x82, 7, 0]).pc.toNat + 1 + (Instr.ldi 2 7 0).count.toNat) ∧
    (fetch Config.default (codeAt 254 [0xC7, 0]) = .ok (.prn 3 0) ∧ (Instr.prn 3 0).advances Flags.empty = true) := by
  decide

/-- A step to Faulted for each of the three causes that are raised, and a state for each cause's code. -/
theorem witness_FaultRecordsNameTheirCause :
    (∀ s ∈ [codeAt 3 [0x00], codeAt 254 [0xA0, 8], codeAt 254 [0xC7, 0], codeAt 255 [0x82]],
      (next? (step s)).isSome = true ∧ (stepped s).run = .faulted) ∧
    State.reset.fault = none ∧
    (∀ cause ∈ [FaultCause.invalidInstruction, .invalidRegisterReference, .unsupportedAluOperation] ++
        [.systemFault, .addressOutOfRange],
      (State.reset.raise cause 0).fault = some ⟨cause, 0, 0⟩) := by decide

theorem witness_AddressPolicyWrapOrFault :
    wrapConfig.outOfRange = .wrap ∧ Config.default.outOfRange = .fault ∧
    ((next? (stepWith wrapConfig (codeAt 255 [0x82, 8]))).map (·.run) = some .running) ∧
    ((next? (stepWith wrapConfig (codeAt 9 [0x82, 8]))).bind (·.fault) = some ⟨.invalidRegisterReference, 9, 8⟩) ∧
    (Instr.add 2 0 0).advances Flags.empty = true ∧ (codeAt 254 []).mem.wf = true ∧
    255 < (codeAt 253 []).pc.toNat + 1 + (Instr.add 2 0 0).count.toNat := by decide

/-- The canonical bytes whose operand faults the statements about single instructions give, with their formats. -/
def operandOps : List (Byte × Format) :=
  [(0xA0, .f2rr), (0xA2, .f2rr), (0xA7, .f2rr), (0x82, .f2ri), (0x47, .f1r), (0x45, .f1r), (0x46, .f1r)] ++
  [(0x50, .f1r), (0x11, .f0s), (0x54, .f1r), (0x55, .f1r), (0x56, .f1r), (0x57, .f1r), (0x58, .f1r), (0x59, .f1r)] ++
  [(0x5A, .f1r)]

/-- `OperandFaults`, for every instruction that a statement says it of: operand 1 at 256, and a first byte of 8 at 255. -/
theorem witness_operandFaults_first : ∀ p ∈ operandOps,
    p.2 ≠ .f0 ∧
    ((codeAt 255 [p.1]).run = .running ∧ (codeAt 255 [p.1]).ir = p.1 ∧ (codeAt 255 [p.1]).pc.toNat = 255) ∧
    ((codeAt 254 [p.1, 8]).ir = p.1 ∧ (codeAt 254 [p.1, 8]).pc.toNat ≤ 254 ∧
      8 ≤ ((codeAt 254 [p.1, 8]).mem.read ((codeAt 254 [p.1, 8]).pc.toNat + 1)).toNat) := by decide

/-- The same for operand 2 at 256 after a first byte of 7, and for a second byte of 8 at 255. -/
theorem witness_operandFaults_second : ∀ p ∈ operandOps, p.2 = .f2rr ∨ p.2 = .f2ri →
    ((codeAt 254 [p.1, 7]).ir = p.1 ∧ (codeAt 254 [p.1, 7]).pc.toNat = 254 ∧
      ((codeAt 254 [p.1, 7]).mem.read 255).toNat < 8) ∧
    ((codeAt 253 [p.1, 7, 8]).ir = p.1 ∧ (codeAt 253 [p.1, 7, 8]).pc.toNat ≤ 253 ∧
      ((codeAt 253 [p.1, 7, 8]).mem.read 254).toNat < 8 ∧ 8 ≤ ((codeAt 253 [p.1, 7, 8]).mem.read 255).toNat) := by
  decide

/-- The last address at which an advance by `1 + n` fits, and the first at which it does not, for every count: the
hypotheses of the statements about ADD, MUL, CMP, LDI, PRN, PUSH and POP. -/
theorem witness_advance_boundary : ∀ n : Count,
    (codeAt (254 - n.setWidth 8) []).pc.toNat + 1 + n.toNat ≤ 255 ∧
    255 < (codeAt (255 - n.setWidth 8) []).pc.toNat + 1 + n.toNat := by decide

/-- The two clauses of PUSH and of POP about the stack pointer as the named register, in a canonical memory. -/
theorem witness_PushStoresBelowTheStackPointer_and_PopLoadsTheTopOfTheStack :
    (codeAt 253 [0x45, 7]).mem.wf = true ∧ (6 : Reg) ≠ 7 ∧ (7 : Reg) = 7 := by decide

theorem witness_CallPushesTheReturnAddress :
    ((codeAt 253 [0x50, 7]).pc.toNat + 2 ≤ 255 ∧ (codeAt 253 [0x50, 7]).mem.wf = true) ∧
    255 < (codeAt 254 [0x50, 7]).pc.toNat + 2 ∧ wrapConfig.outOfRange = .wrap := by decide

theorem witness_RetPopsTheProgramCounter :
    bareRetConfig.retDecodesOperand = false ∧ (codeAt 255 [0x11]).run = .running ∧
    selectOp bareRetConfig (codeAt 255 [0x11]).ir = some .ret := by decide

/-- `BranchRule`: a value of `FL` on which each branch is taken and one on which it is not, at the last address from
which a branch not taken goes on and at the first from which it faults. -/
theorem witness_BranchRule :
    (flagsE = ⟨false, true, false⟩ ∧ flagsL ≠ ⟨false, true, false⟩) ∧
    (flagsG = ⟨false, false, true⟩ ∧ flagsE ≠ ⟨false, false, true⟩) ∧
    (flagsL = ⟨true, false, false⟩ ∧ flagsE ≠ ⟨true, false, false⟩) ∧
    (Flags.empty.e = false ∧ ¬flagsE.e = false) ∧
    ((flagsG.g = true ∨ flagsG.e = true) ∧ ¬(flagsL.g = true ∨ flagsL.e = true)) ∧
    ((flagsL.l = true ∨ flagsL.e = true) ∧ ¬(flagsG.l = true ∨ flagsG.e = true)) ∧
    (codeAt 253 []).pc.toNat + 1 + (1 : Count).toNat ≤ 255 ∧
    255 < (codeAt 254 []).pc.toNat + 1 + (1 : Count).toNat := by decide

theorem witness_BranchesFollowTheComparison :
    (∀ f ∈ [Flags.empty, flagsL, flagsE, flagsG], ((codeAt 0 []).setFlags f).flags = f) ∧
    ((codeAt 252 []).pc.toNat + 1 + (2 : Count).toNat ≤ 255 ∧
      exec (.cmp 2 0 7) (codeAt 252 []) = .next (after (.cmp 2 0 7) (codeAt 252 []))) :=
  ⟨by decide, by decide, exec_eq_after⟩

/-- One instruction that writes registers, one that stores and one that does neither, each completing. -/
theorem witness_OnlyNamedRegistersAreWritten_and_OnlyPushAndCallWriteMemory :
    ∀ i ∈ [Instr.pop 1 3, .push 1 3, .call 1 false 3, .jmp 1 false 3],
      exec i State.reset = .next (after i State.reset) ∧ (after i State.reset).run ≠ .faulted ∧
      (i.storeAddress State.reset = some 0xF2 ∨ i.storeAddress State.reset = none) := by
  intro i hi
  refine ⟨exec_eq_after, ?_⟩
  revert i
  decide

theorem witness_FlagsAreWrittenByCmpAndReadByBranches :
    (Instr.op (.prn 1 0) ≠ .cmp ∧ exec (.prn 1 0) State.reset = .next (after (.prn 1 0) State.reset) ∧
      (after (.prn 1 0) State.reset).run ≠ .faulted ∧ (Instr.op (.prn 1 0)).isConditionalBranch = false) ∧
    (exec (.cmp 2 0 7) State.reset = .next (after (.cmp 2 0 7) State.reset) ∧
      exec (.cmp 2 0 7) (State.reset.setFlags flagsG) = .next (after (.cmp 2 0 7) (State.reset.setFlags flagsG)) ∧
      (after (.cmp 2 0 7) State.reset).run ≠ .faulted) :=
  ⟨⟨by decide, exec_eq_after, by decide, by decide⟩, exec_eq_after, exec_eq_after, by decide⟩

theorem witness_ExactlyOneFlagAfterCompare :
    let s := codeAt 252 [0xA7, 0, 7]
    step s = .next (stepped s) ∧ (stepped s).run ≠ .faulted ∧ s.flags.legal = true ∧
      (∃ a b, fetch Config.default s = .ok (.cmp 2 a b)) ∧ (stepped s).flags ≠ s.flags ∧
      (stepped State.reset.halt).flags = Flags.empty :=
  ⟨step_eq_stepped (by decide), by decide, by decide, ⟨0, 7, by decide⟩, by decide, by decide⟩

theorem witness_OutputGrowsOnlyByPrn :
    step (codeAt 253 [0x47, 7]) = .next (stepped (codeAt 253 [0x47, 7])) ∧
    (stepped (codeAt 253 [0x47, 7])).out = [0xF3] :=
  ⟨step_eq_stepped (by decide), by decide⟩

theorem witness_RetUndoesCall :
    let s := (codeAt 253 [0x50, 1]).setReg 1 9
    s.mem.wf = true ∧ s.pc.toNat ≤ 253 ∧ exec (.call 1 false 1) s = .next (after (.call 1 false 1) s) ∧
      (after (.call 1 false 1) s).readByte 0xF2 = 255 :=
  ⟨by decide, by decide, exec_eq_after, by decide⟩

/-- The last addresses at which both instructions advance: PUSH at 251 and POP at 253. -/
theorem witness_PopAfterPushRoundTrips :
    let s := (codeAt 251 [0x45, 0]).setReg 0 16
    s.mem.wf = true ∧ (2 : Reg) ≠ 7 ∧ (0 : Reg) ≠ 7 ∧ s.pc.toNat + 1 + (1 : Count).toNat ≤ 255 ∧
      exec (.push 1 0) s = .next (after (.push 1 0) s) ∧
      (after (.push 1 0) s).pc.toNat + 1 + (1 : Count).toNat ≤ 255 :=
  ⟨by decide, by decide, by decide, by decide, exec_eq_after, by decide⟩

/-- A PUSH at 0 with `sp` 3 stores where the next instruction is fetched; with R0 = 1 that is HLT, with R7 the new `sp`,
2, an LDI. -/
theorem witness_StoredByteIsFetchedNext_push :
    let s := ((codeAt 0 [0x45, 0]).setReg 0 1).setReg 7 3
    let t := after (.push 1 0) s
    (s.mem.wf = true ∧ t.run = .running ∧ t.pc = s.pushAddress ∧ exec (.push 1 0) s = .next t ∧
      (1 : Byte) = (if (0 : Reg) = 7 then s.reg 7 - 1 else s.reg 0)) ∧
    (irSpecial (1 : Byte) = false ∧ irAlu (1 : Byte) = false ∧ irOp (1 : Byte) = 1) :=
  ⟨⟨by decide, by decide, by decide, exec_eq_after, by decide⟩, by decide⟩

/-- A CALL at 1 to `sp - 1` fetches its own return address, 3, which no table holds; one at 63 fetches 0x41, HLT. -/
theorem witness_StoredByteIsFetchedNext_call :
    let s := (codeAt 1 [0x50, 1]).setReg 1 0xF2
    let t := after (.call 1 false 1) s
    let u := (codeAt 63 [0x50, 1]).setReg 1 0xF2
    (s.mem.wf = true ∧ t.run = .running ∧ t.pc = s.pushAddress ∧ exec (.call 1 false 1) s = .next t ∧
      (3 : Byte) = s.pc + 2 ∧ selectOp Config.default (3 : Byte) = none) ∧
    (u.pc + 2 = (0x41 : Byte) ∧ irSpecial (0x41 : Byte) = false ∧ irAlu (0x41 : Byte) = false ∧
      irOp (0x41 : Byte) = 1) :=
  ⟨⟨by decide, by decide, by decide, exec_eq_after, by decide, by decide⟩, by decide⟩

end Sys2Proof.Tests
end

/-! SUPPORT. The machine's state (10_state.md): the invariant `State.legal` and that every step keeps it, the canonical
form of memory, and which instructions write the registers, `FL` and `OUT`. -/

namespace Sys2Proof.Machine

/-! ## The invariant, part by part -/

theorem State.legal_iff (s : State) : s.legal = true ↔
    s.mem.wf = true ∧ s.flags.legal = true ∧ (s.run = .faulted ↔ s.fault.isSome = true) ∧
      s.fault.all FaultRecord.legal = true := by
  have hstatus : (s.run == .faulted) = s.fault.isSome ↔ (s.run = .faulted ↔ s.fault.isSome = true) := by
    rw [Bool.eq_iff_iff, beq_iff_eq]
  simp only [State.legal, Bool.and_eq_true, beq_iff_eq, hstatus, and_assoc]

/-- A legal state that is not Faulted holds no fault record (R31). -/
theorem State.fault_eq_none_of_legal {s : State} (h : s.legal = true) (hr : s.run ≠ .faulted) : s.fault = none := by
  obtain ⟨-, -, hstatus, -⟩ := s.legal_iff.mp h
  simpa [hr] using hstatus

theorem State.legal_of_fault_eq_none {s : State} (hm : s.mem.wf = true) (hf : s.flags.legal = true)
    (hr : s.run ≠ .faulted) (hn : s.fault = none) : s.legal = true :=
  s.legal_iff.mpr ⟨hm, hf, by simp [hr, hn], by simp [hn]⟩

/-- Taking a fault keeps the invariant where the record is one of those of R171. -/
theorem State.raise_legal {s : State} (h : s.legal = true) {cause : FaultCause} {info : Nat}
    (hrec : FaultRecord.legal ⟨cause, s.pc, info⟩ = true) : (s.raise cause info).legal = true := by
  obtain ⟨hm, hf, -, -⟩ := s.legal_iff.mp h
  exact (State.legal_iff _).mpr ⟨hm, hf, by simp, by simpa using hrec⟩

/-- The range of an out-of-range address (R171). -/
theorem FaultRecord.legal_addressOutOfRange {pc : Byte} {info : Nat} (hlo : 255 < info) (hhi : info ≤ 258) :
    FaultRecord.legal ⟨.addressOutOfRange, pc, info⟩ = true := by
  simp only [FaultRecord.legal, Bool.and_eq_true, decide_eq_true_eq]
  omega

/-! ## Which errors a decode can answer -/

/-- The errors that decoding `bytes` can answer (R68, R84): a refused register reference has a bit of 7:3 set, and a
missing byte is one of the first three and is not there. -/
def DecodeErrorPossible (bytes : List Byte) : DecodeError → Prop
  | .invalidInstruction _ => True
  | .invalidRegisterReference b => 8 ≤ b.toNat
  | .missingByte k => k ≤ 2 ∧ bytes[k]? = none

theorem regRef_error {b : Byte} {e : DecodeError} (bytes : List Byte) (h : regRef b = .error e) :
    DecodeErrorPossible bytes e := by
  by_cases hb : b.toNat < 8
  · rw [regRef_of_lt hb] at h; cases h
  · rw [regRef_of_ge (by omega)] at h; cases h
    exact Nat.le_of_not_lt hb

theorem operandByte_error {bytes : List Byte} {k : Nat} {e : DecodeError} (hk : k ≤ 2)
    (h : operandByte bytes k = .error e) : DecodeErrorPossible bytes e := by
  cases hb : bytes[k]? with
  | some b => rw [operandByte_of_get hb] at h; cases h
  | none => rw [operandByte_of_none hb] at h; cases h; exact ⟨hk, hb⟩

theorem operandReg_error {bytes : List Byte} {k : Nat} {e : DecodeError} (hk : k ≤ 2)
    (h : operandReg bytes k = .error e) : DecodeErrorPossible bytes e := by
  unfold operandReg at h
  split at h
  · exact regRef_error bytes h
  · next hb => cases h; exact operandByte_error hk hb

theorem readF1R_error {bytes : List Byte} {mk : Reg → Instr} {e : DecodeError} (h : readF1R bytes mk = .error e) :
    DecodeErrorPossible bytes e := by
  unfold readF1R at h
  split at h
  · cases h
  · next h1 => cases h; exact operandReg_error (by omega) h1

theorem readF2RR_error {bytes : List Byte} {mk : Reg → Reg → Instr} {e : DecodeError}
    (h : readF2RR bytes mk = .error e) : DecodeErrorPossible bytes e := by
  unfold readF2RR at h
  split at h
  · next h1 => cases h; exact operandReg_error (by omega) h1
  · split at h
    · cases h
    · next h2 => cases h; exact operandReg_error (by omega) h2

theorem readF2RI_error {bytes : List Byte} {mk : Reg → Byte → Instr} {e : DecodeError}
    (h : readF2RI bytes mk = .error e) : DecodeErrorPossible bytes e := by
  unfold readF2RI at h
  split at h
  · next h1 => cases h; exact operandReg_error (by omega) h1
  · split at h
    · cases h
    · next h2 => cases h; exact operandByte_error (by omega) h2

theorem readF0S_error {c : Config} {bytes : List Byte} {mk : Option Reg → Instr} {e : DecodeError}
    (h : readF0S c bytes mk = .error e) : DecodeErrorPossible bytes e := by
  unfold readF0S at h
  split at h
  · split at h
    · cases h
    · next h1 => cases h; exact operandReg_error (by omega) h1
  · cases h

theorem readOperands_error {c : Config} {n : Count} {f : Bool} {bytes : List Byte} {o : Op} {e : DecodeError}
    (h : readOperands c n f bytes o = .error e) : DecodeErrorPossible bytes e := by
  cases o with
  | hlt => cases h
  | ldi => exact readF2RI_error h
  | add | mul | cmp => exact readF2RR_error h
  | ret => exact readF0S_error h
  | push | pop | prn | call | jmp | jeq | jne | jgt | jlt | jle | jge => exact readF1R_error h

theorem fetch_error {c : Config} {s : State} {e : DecodeError} (h : fetch c s = .error e) :
    DecodeErrorPossible (fetchBytes c s) e := by
  rw [fetch_eq] at h
  cases hs : selectOp c s.ir with
  | none => rw [hs] at h; cases h; trivial
  | some o => rw [hs] at h; exact readOperands_error h

/-- The fault of a failed fetch has a record of R171, so taking it keeps the invariant. -/
theorem raiseDecode_legal {s : State} {e : DecodeError} (h : s.legal = true) (he : fetch Config.default s = .error e) :
    (s.raiseDecode e).legal = true := by
  have hp := fetch_error he
  cases e with
  | invalidInstruction ir =>
    exact State.raise_legal h (decide_eq_true (Nat.le_of_lt_succ ir.isLt))
  | invalidRegisterReference b =>
    have hb : 8 ≤ b.toNat := hp
    exact State.raise_legal h (by simp [FaultRecord.legal, hb, Nat.le_of_lt_succ b.isLt])
  | missingByte k =>
    obtain ⟨hk, hnone⟩ := hp
    have hgt : 255 < s.pc.toNat + k := by
      by_contra hle
      rw [fetchBytes_of_le s hk (by omega)] at hnone
      cases hnone
    exact State.raise_legal h (FaultRecord.legal_addressOutOfRange hgt (by have := s.pc.isLt; omega))

/-! ## Every instruction but HLT has an operand byte -/

theorem operandReg_of_readOperands {n : Count} {f : Bool} {bytes : List Byte} {o : Op} {i : Instr}
    (h : readOperands Config.default n f bytes o = .ok i) (ho : o ≠ .hlt) : ∃ r, operandReg bytes 1 = .ok r := by
  cases hr : operandReg bytes 1 with
  | ok r => exact ⟨r, rfl⟩
  | error e =>
    cases o with
    | hlt => exact absurd rfl ho
    | ldi => simp [readOperands, readF2RI, hr] at h
    | add | mul | cmp => simp [readOperands, readF2RR, hr] at h
    | ret => simp [readOperands, readF0S, hr, Config.default] at h
    | push | pop | prn | call | jmp | jeq | jne | jgt | jlt | jle | jge => simp [readOperands, readF1R, hr] at h

/-- A fetched instruction other than HLT does not stand in the last byte of memory: its operand byte exists. -/
theorem pc_le_of_fetch {s : State} {i : Instr} (h : fetch Config.default s = .ok i) (hi : i.op ≠ .hlt) :
    s.pc.toNat ≤ 254 := by
  have hsel := (op_of_fetch h).1
  rw [fetch_eq, hsel] at h
  obtain ⟨r, hr⟩ := operandReg_of_readOperands h hi
  by_contra hgt
  rw [operandReg_one_of_eq (by have := s.pc.isLt; omega)] at hr
  cases hr

/-! ## Everything an instruction can do -/

/-- The execute stage raises one fault only: CALL's, for a return address out of range (R120). -/
theorem stage_raise {c : Config} {i : Instr} {s : State} {cause : FaultCause} {info : Nat}
    (h : stage c i s = .raise cause info) :
    i.op = .call ∧ cause = .addressOutOfRange ∧ info = s.pc.toNat + 2 ∧ 255 < info := by
  cases i with
  | call n f r =>
    simp only [stage, callStage] at h
    split at h
    · next hnone => cases h; exact ⟨rfl, rfl, rfl, lt_of_resolveAddress_eq_none hnone⟩
    · cases h
  | jeq n f r | jne n f r | jgt n f r | jlt n f r | jle n f r | jge n f r =>
    simp only [stage, jeqStage, jneStage, jgtStage, jltStage, jleStage, jgeStage, branchStage] at h
    split at h <;> cases h
  | hlt | ldi | push | pop | prn | add | mul | cmp | ret | jmp => cases h

/-- HLT's stage halts, so an instruction that advances is another one. -/
theorem op_ne_hlt_of_advance {c : Config} {i : Instr} {s w : State} (h : stage c i s = .advance w) : i.op ≠ .hlt := by
  rintro hop
  cases i <;> cases hop
  cases h

/-- An instruction commits the writes of its stage with a new `pc` or a halt, or it takes the fault of an address above
255, which is the next address or CALL's return address, and HLT takes none. -/
theorem execWith_cases (c : Config) (i : Instr) (s : State) :
    (∃ w, StageWrites c i s w ∧ ((∃ p, execWith c i s = w.setPc p) ∨ execWith c i s = w.halt)) ∨
    (∃ info, execWith c i s = s.raise .addressOutOfRange info ∧ 255 < info ∧ i.op ≠ .hlt ∧
      (info = s.nextPc i.count ∨ info = s.pc.toNat + 2)) := by
  rcases commit_cases c i.count s (stage c i s) with
    ⟨w, p, h | h, e⟩ | ⟨w, h, e⟩ | ⟨w, h, hgt, e⟩ | ⟨cause, info, h, e⟩
  · exact .inl ⟨w, .inl h, .inl ⟨p, e⟩⟩
  · exact .inl ⟨w, .inr (.inl ⟨p, h⟩), .inl ⟨p, e⟩⟩
  · exact .inl ⟨w, .inr (.inr h), .inr e⟩
  · exact .inr ⟨_, e, hgt, op_ne_hlt_of_advance h, .inl rfl⟩
  · obtain ⟨hop, rfl, hinfo, hgt⟩ := stage_raise h
    exact .inr ⟨info, e, hgt, by simp [hop], .inr hinfo⟩

theorem stageWrites_cmp {c : Config} {n : Count} {a b : Reg} {s w : State} (h : StageWrites c (.cmp n a b) s w) :
    w = s.setFlags (compareBytes (s.reg a) (s.reg b)) := by
  simpa [StageWrites, stage, cmpStage, eq_comm] using h

theorem op_eq_cmp {i : Instr} (h : i.op = .cmp) : ∃ n a b, i = .cmp n a b := by
  cases i <;> cases h
  exact ⟨_, _, _, rfl⟩

theorem op_eq_prn {i : Instr} (h : i.op = .prn) : ∃ n r, i = .prn n r := by
  cases i <;> cases h
  exact ⟨_, _, rfl⟩

/-! ## Every step keeps the invariant -/

theorem stageWrites_mem_wf {c : Config} {i : Instr} {s w : State} (hw : StageWrites c i s w) (h : s.mem.wf = true) :
    w.mem.wf = true := by
  have frame := stage_frame hw
  cases hst : i.storeAddress s with
  | none => rw [frame.mem hst]; exact h
  | some a =>
    obtain ⟨v, hv⟩ := frame.store a hst
    rw [hv]
    exact State.writeByte_wf h a v

theorem stageWrites_flags_legal {c : Config} {i : Instr} {s w : State} (hw : StageWrites c i s w)
    (h : s.flags.legal = true) : w.flags.legal = true := by
  by_cases hi : i.op = .cmp
  · obtain ⟨n, a, b, rfl⟩ := op_eq_cmp hi
    rw [stageWrites_cmp hw]
    exact (compareBytes_legal _ _).1
  · rw [(stage_frame hw).flags hi]
    exact h

/-- A fetched instruction keeps the invariant (R87). -/
theorem execWith_legal {s : State} {i : Instr} (h : s.legal = true) (hr : s.run = .running)
    (hf : fetch Config.default s = .ok i) : (execWith Config.default i s).legal = true := by
  rcases execWith_cases Config.default i s with ⟨w, hw, hwrite⟩ | ⟨info, e, hgt, hop, hinfo⟩
  · obtain ⟨hm, hfl, -, -⟩ := s.legal_iff.mp h
    have hwm := stageWrites_mem_wf hw hm
    have hwf := stageWrites_flags_legal hw hfl
    obtain ⟨-, hwrun, hwfault⟩ := stage_pc_run_fault hw
    have hn : w.fault = none := hwfault.trans (State.fault_eq_none_of_legal h (by simp [hr]))
    obtain ⟨p, e⟩ | e := hwrite
    · rw [e]
      exact State.legal_of_fault_eq_none hwm hwf (by simp [hwrun, hr]) hn
    · rw [e]
      exact State.legal_of_fault_eq_none hwm hwf (by simp) hn
  · have hpc := pc_le_of_fetch hf hop
    have hnext := nextPc_le s i.count
    rw [e]
    exact State.raise_legal h (FaultRecord.legal_addressOutOfRange hgt (by omega))

/-- Settles O3: a failed decode takes a fault of R171, and a decoded instruction commits its stage's writes or takes the
fault of an address of at most 258, since only HLT can stand at 255. -/
theorem stepKeepsLegal : Obligations.StepKeepsLegal := by
  intro s t h hstep
  obtain ⟨hr, ⟨e, he, rfl⟩ | ⟨i, hi, rfl⟩⟩ := step_cases hstep
  · exact raiseDecode_legal h he
  · exact execWith_legal h hr hi

/-- Settles O2: an accepted image fits below `MEM_SIZE`, so placing it keeps the canonical form. -/
theorem resetAndBootedStatesAreLegal : Obligations.ResetAndBootedStatesAreLegal := by
  refine ⟨by decide, fun c image s h => ?_⟩
  unfold bootWith at h
  split at h
  · next hfits =>
    cases h
    have hlen : image.length ≤ memSize := by
      simp only [imageFits, Bool.and_eq_true, decide_eq_true_eq] at hfits
      exact hfits.1
    have hwf : (Memory.place [] 0 (image.map (BitVec.ofNat 8))).wf = true :=
      Memory.place_wf Memory.wf_nil _ _ (by simpa using hlen)
    exact State.legal_of_fault_eq_none hwf rfl (by simp [State.resetWith]) rfl
  · cases h

/-! ## The canonical form of memory -/

/-- A canonical memory starts at its first cell. -/
theorem Memory.wfFrom_head {lo k : Nat} {v : Byte} {m : Memory} (h : wfFrom lo ((k, v) :: m) = true) :
    wfFrom k ((k, v) :: m) = true :=
  wfFrom_cons.mpr ⟨le_rfl, (wfFrom_cons.mp h).2⟩

/-- A canonical memory does not read as 0 at its first cell. -/
theorem Memory.read_head_ne_zero {lo k : Nat} {v : Byte} {m : Memory} (h : wfFrom lo ((k, v) :: m) = true) :
    read ((k, v) :: m) k ≠ 0 := by
  rw [read_cons, if_pos rfl]
  exact (wfFrom_cons.mp h).2.2.1

/-- An address that does not read as 0 is not below the canonical memory's first. -/
theorem Memory.le_of_read_ne_zero {lo : Nat} {m : Memory} (h : m.wfFrom lo = true) {a : Nat} (ha : m.read a ≠ 0) :
    lo ≤ a := by
  by_contra hlt
  exact ha (read_of_lt h (by omega))

/-- Of two canonical memories with the same reads, the first cell of one is not below the first cell of the other. -/
theorem Memory.head_le_of_read_eq {lo k k' : Nat} {v v' : Byte} {m m' : Memory}
    (h : wfFrom lo ((k, v) :: m) = true) (h' : wfFrom lo ((k', v') :: m') = true)
    (hread : ∀ a, a < memSize → read ((k, v) :: m) a = read ((k', v') :: m') a) : k ≤ k' := by
  refine le_of_read_ne_zero (wfFrom_head h) ?_
  rw [hread k' (wfFrom_cons.mp h').2.1]
  exact read_head_ne_zero h'

/-- Canonical memories from `lo` up are determined by their reads: their first cells agree, and so do the reads of what
follows. -/
theorem Memory.eq_of_read_eq {lo : Nat} {m m' : Memory} (h : m.wfFrom lo = true) (h' : m'.wfFrom lo = true)
    (hread : ∀ a, a < memSize → m.read a = m'.read a) : m = m' := by
  induction m generalizing lo m' with
  | nil =>
    cases m' with
    | nil => rfl
    | cons p' m' => exact absurd (hread p'.1 (wfFrom_cons.mp h').2.1).symm (read_head_ne_zero h')
  | cons p m ih =>
    cases m' with
    | nil => exact absurd (hread p.1 (wfFrom_cons.mp h).2.1) (read_head_ne_zero h)
    | cons p' m' =>
      obtain ⟨k, v⟩ := p
      obtain ⟨k', v'⟩ := p'
      obtain rfl : k = k' :=
        le_antisymm (head_le_of_read_eq h h' hread) (head_le_of_read_eq h' h fun a ha => (hread a ha).symm)
      obtain ⟨-, hk, -, hm⟩ := wfFrom_cons.mp h
      obtain ⟨-, -, -, hm'⟩ := wfFrom_cons.mp h'
      obtain rfl : v = v' := by simpa [read_cons] using hread k hk
      have htail : ∀ a, a < memSize → read m a = read m' a := by
        intro a ha
        by_cases hak : a ≤ k
        · rw [read_of_lt hm (by omega), read_of_lt hm' (by omega)]
        · simpa [read_cons, show a ≠ k by omega] using hread a ha
      rw [ih hm hm' htail]

/-- Settles O4, by induction on the cells of the first memory. -/
theorem canonicalMemoriesAreDeterminedByTheirReads : Obligations.CanonicalMemoriesAreDeterminedByTheirReads := by
  intro m m' h h' hread
  exact Memory.eq_of_read_eq h h' fun a ha => hread (BitVec.ofNatLT a ha)

/-! ## Registers -/

/-- Settles O32: a completed instruction holds its stage's writes, and the stage's frame names the registers. -/
theorem onlyNamedRegistersAreWritten : Obligations.OnlyNamedRegistersAreWritten := by
  intro i s t he hr q hq
  obtain ⟨w, hw, hregs, -⟩ := exec_eq_stage he hr
  rw [reg_congr hregs, (stage_frame hw).regs q hq]

/-! ## Who writes `FL` -/

theorem exec_flags_of_ne_cmp {i : Instr} {s t : State} (hi : i.op ≠ .cmp) (he : exec i s = .next t)
    (hr : t.run ≠ .faulted) : t.flags = s.flags := by
  obtain ⟨w, hw, -, -, hflags, -⟩ := exec_eq_stage he hr
  rw [hflags, (stage_frame hw).flags hi]

theorem exec_cmp_flags {n : Count} {a b : Reg} {s t : State} (he : exec (.cmp n a b) s = .next t)
    (hr : t.run ≠ .faulted) : t.flags = compareBytes (s.reg a) (s.reg b) := by
  obtain ⟨w, hw, -, -, hflags, -⟩ := exec_eq_stage he hr
  rw [hflags, stageWrites_cmp hw, State.setFlags_flags]

/-- A step that does not fault is the meaning of the instruction it fetched. -/
theorem exec_of_step {s t : State} (h : step s = .next t) (hr : t.run ≠ .faulted) :
    ∃ i, fetch Config.default s = .ok i ∧ exec i s = .next t := by
  obtain ⟨-, ⟨e, -, rfl⟩ | ⟨i, hi, rfl⟩⟩ := step_cases h
  · obtain ⟨cause, info, hraise, -⟩ := raiseDecode_eq s e
    rw [hraise] at hr
    exact absurd rfl hr
  · exact ⟨i, hi, exec_eq i s⟩

/-- Settles O35: a comparison leaves one flag, and every other step that completes keeps `FL`. -/
theorem exactlyOneFlagAfterCompare : Obligations.ExactlyOneFlagAfterCompare := by
  refine ⟨rfl, ?_, ?_⟩
  · rintro s t n hstep hr ⟨a, b, hfetch⟩
    obtain ⟨i, hi, he⟩ := exec_of_step hstep hr
    obtain rfl : i = .cmp n a b := Except.ok.inj (hi.symm.trans hfetch)
    rw [exec_cmp_flags he hr]
    exact compareBytes_legal _ _
  · intro s t hstep hr hlegal
    obtain ⟨i, hi, he⟩ := exec_of_step hstep hr
    by_cases hop : i.op = .cmp
    · obtain ⟨n, a, b, rfl⟩ := op_eq_cmp hop
      obtain ⟨hleg, hne⟩ := compareBytes_legal (s.reg a) (s.reg b)
      rw [exec_cmp_flags he hr]
      exact ⟨hleg, fun hempty => absurd hempty hne, fun _ => ⟨n, a, b, hi⟩⟩
    · rw [exec_flags_of_ne_cmp hop he hr]
      exact ⟨hlegal, id, fun hne => absurd rfl hne⟩

/-! ## Who reads `FL` -/

/-- The effect with `FL` replaced in the state it writes. -/
def Effect.setFlags (f : Flags) : Effect → Effect
  | .advance w => .advance (w.setFlags f)
  | .override w target => .override (w.setFlags f) target
  | .halt w => .halt (w.setFlags f)
  | .raise cause info => .raise cause info

/-- The PC update and the commit do not look at `FL`. -/
theorem commit_setFlags (c : Config) (n : Count) (s : State) (f : Flags) (e : Effect) :
    commit c n (s.setFlags f) (e.setFlags f) = (commit c n s e).setFlags f := by
  cases e with
  | advance w =>
    have hnext : (s.setFlags f).nextPc n = s.nextPc n := rfl
    simp only [Effect.setFlags, commit, hnext]
    cases resolveAddress c (s.nextPc n) <;> rfl
  | override | halt | raise => rfl

/-- The stage of an instruction that is no conditional branch and no CMP passes `FL` on without looking at it. -/
theorem stage_setFlags (c : Config) {i : Instr} (hbranch : i.op.isConditionalBranch = false) (hcmp : i.op ≠ .cmp)
    (s : State) (f : Flags) : stage c i (s.setFlags f) = (stage c i s).setFlags f := by
  cases i with
  | cmp => exact absurd rfl hcmp
  | jeq | jne | jgt | jlt | jle | jge => cases hbranch
  | call n g r =>
    simp only [stage, callStage, State.setFlags_pc]
    cases resolveAddress c (s.pc.toNat + 2) <;> rfl
  | hlt | ldi | push | pop | prn | add | mul | ret | jmp => rfl

/-- CMP under another `FL` does the same, and where it faults the old `FL` stays. -/
theorem execWith_cmp_setFlags (c : Config) (n : Count) (a b : Reg) (s : State) (f : Flags) :
    ∃ g, execWith c (.cmp n a b) (s.setFlags f) = (execWith c (.cmp n a b) s).setFlags g := by
  have hnext : (s.setFlags f).nextPc n = s.nextPc n := rfl
  simp only [execWith, stage, cmpStage, commit, Instr.count, hnext]
  cases resolveAddress c (s.nextPc n) with
  | none => exact ⟨f, rfl⟩
  | some p => exact ⟨compareBytes (s.reg a) (s.reg b), rfl⟩

/-- An instruction that is no conditional branch has the same effect on everything but `FL` whatever `FL` was. -/
theorem execWith_setFlags (c : Config) {i : Instr} (hbranch : i.op.isConditionalBranch = false) (s : State)
    (f : Flags) : ∃ g, execWith c i (s.setFlags f) = (execWith c i s).setFlags g := by
  by_cases hcmp : i.op = .cmp
  · obtain ⟨n, a, b, rfl⟩ := op_eq_cmp hcmp
    exact execWith_cmp_setFlags c n a b s f
  · refine ⟨f, ?_⟩
    simp only [execWith, stage_setFlags c hbranch hcmp, commit_setFlags]

/-- Settles O34: the stage's frame for the writes, and `execWith_setFlags` for the reads. -/
theorem flagsAreWrittenByCmpAndReadByBranches : Obligations.FlagsAreWrittenByCmpAndReadByBranches := by
  refine ⟨fun i s t hi he hr => exec_flags_of_ne_cmp hi he hr, ?_, ?_⟩
  · intro s t t' f n a b he he' hr
    have hr' : t'.run ≠ .faulted := by
      obtain ⟨g, hg⟩ := execWith_cmp_setFlags Config.default n a b s f
      rw [exec_eq] at he he'
      cases he
      cases he'
      rwa [hg, State.setFlags_run]
    rw [exec_cmp_flags he hr, exec_cmp_flags he' hr', State.reg_setFlags, State.reg_setFlags]
  · intro i s t f hbranch he
    obtain ⟨g, hg⟩ := execWith_setFlags Config.default hbranch s f
    rw [exec_eq] at he
    cases he
    exact ⟨(execWith Config.default i s).setFlags g, by rw [exec_eq, hg], rfl, rfl, rfl, fun _ => rfl⟩

/-! ## Who writes `OUT` -/

/-- PRN appends the byte of its register, or its advance faults and discards the byte (R87, R152). -/
theorem execWith_prn_out (c : Config) (n : Count) (r : Reg) (s : State) :
    (execWith c (.prn n r) s).out = s.out ∨
      (execWith c (.prn n r) s).run = s.run ∧ (execWith c (.prn n r) s).out = s.out ++ [s.reg r] := by
  simp only [execWith, stage, prnStage, commit, Instr.count]
  cases resolveAddress c (s.nextPc n) with
  | none => exact .inl rfl
  | some p => exact .inr ⟨rfl, rfl⟩

/-- An instruction leaves `OUT` as it was, or it is a PRN that completes. -/
theorem execWith_out (c : Config) (i : Instr) (s : State) :
    (execWith c i s).out = s.out ∨
      ∃ n r, i = .prn n r ∧ (execWith c i s).run = s.run ∧ (execWith c i s).out = s.out ++ [s.reg r] := by
  by_cases hi : i.op = .prn
  · obtain ⟨n, r, rfl⟩ := op_eq_prn hi
    exact (execWith_prn_out c n r s).imp_right fun ⟨hrun, hout⟩ => ⟨n, r, rfl, hrun, hout⟩
  · left
    rcases execWith_cases c i s with ⟨w, hw, ⟨p, e⟩ | e⟩ | ⟨info, e, -⟩
    · rw [e, State.setPc_out, (stage_frame hw).out hi]
    · rw [e, State.halt_out, (stage_frame hw).out hi]
    · rw [e, State.raise_out]

/-- Settles O36: of the instructions only PRN's stage writes `OUT`, and a fault discards the write. -/
theorem outputGrowsOnlyByPrn : Obligations.OutputGrowsOnlyByPrn := by
  intro s t hstep
  obtain ⟨hr, ⟨e, -, rfl⟩ | ⟨i, hi, rfl⟩⟩ := step_cases hstep
  · obtain ⟨cause, info, hraise, -⟩ := raiseDecode_eq s e
    exact .inl (by rw [hraise, State.raise_out])
  · rcases execWith_out Config.default i s with hout | ⟨n, r, rfl, hrun, hout⟩
    · exact .inl hout
    · exact .inr ⟨n, r, hi, hrun.trans hr, hout⟩

end Sys2Proof.Machine

/-! SUPPORT. Memory (20_memory.md): the two address policies, which instructions store and where, and a stored byte as the
next instruction byte. -/

namespace Sys2Proof.Machine

/-! ## Addresses and faults -/

/-- Either policy can resolve an address only to the address mod 256 (R43). -/
theorem resolveAddress_eq_some {c : Config} {addr : Nat} {b : Byte} (h : resolveAddress c addr = some b) :
    b = BitVec.ofNat 8 addr := by
  unfold resolveAddress at h
  split at h
  · exact (Option.some.inj h).symm
  · split at h
    · cases h
    · exact (Option.some.inj h).symm

/-- A natural offset from an address, taken mod 256, is the sum of bytes. -/
theorem ofNat_toNat_add (p : Byte) (k : Nat) : BitVec.ofNat 8 (p.toNat + k) = p + BitVec.ofNat 8 k := by
  rw [BitVec.ofNat_add, BitVec.ofNat_toNat, BitVec.setWidth_eq]

/-- The next address mod 256 (R86). -/
theorem ofNat_nextPc (s : State) (n : Count) : BitVec.ofNat 8 (s.nextPc n) = s.pc + 1 + n.setWidth 8 := by
  rw [State.nextPc, BitVec.ofNat_add, ofNat_toNat_add, BitVec.ofNat_toNat]
  rfl

theorem takesFault_raise (s : State) (cause : FaultCause) (info : Nat) :
    TakesFault (.next (s.raise cause info)) s cause info :=
  ⟨_, rfl, rfl, rfl, rfl⟩

/-- An instruction that `Instr.advances` names has a stage that advances (R85, R119). -/
theorem stage_of_advances (c : Config) {i : Instr} {s : State} (h : i.advances s.flags = true) :
    ∃ w, stage c i s = .advance w := by
  have hbranch : ∀ (taken : Bool) (r : Reg), (!taken) = true → ∃ w, branchStage taken r s = .advance w := by
    rintro (_ | _) r ht
    · exact ⟨s, rfl⟩
    · cases ht
  cases i with
  | ldi | push | pop | prn | add | mul | cmp => exact ⟨_, rfl⟩
  | hlt | call | ret | jmp => cases h
  | jeq n f r | jne n f r | jgt n f r | jlt n f r | jle n f r | jge n f r => exact hbranch _ r h

/-! ## The policy `wrap` -/

theorem commit_advance_of_wrap {c : Config} (hc : c.outOfRange = .wrap) (n : Count) (s w : State) :
    commit c n s (.advance w) = w.setPc (s.pc + 1 + n.setWidth 8) := by
  simp only [commit, resolveAddress_of_wrap hc, ofNat_nextPc]

theorem callStage_of_wrap {c : Config} (hc : c.outOfRange = .wrap) (r : Reg) (s : State) :
    callStage c r s = .override (s.writeByte s.pushAddress (s.pc + 2)).decrementSp
      ((s.writeByte s.pushAddress (s.pc + 2)).decrementSp.reg r) := by
  simp only [callStage, resolveAddress_of_wrap hc, ofNat_toNat_add]
  rfl

/-- All three bytes exist, at addresses mod 256 (R43, R84). -/
theorem fetchBytes_of_wrap {c : Config} (hc : c.outOfRange = .wrap) (s : State) :
    fetchBytes c s = [s.readByte s.pc, s.readByte (s.pc + 1), s.readByte (s.pc + 2)] := by
  simp [fetchBytes, resolveAddress_of_wrap hc, ofNat_toNat_add]

/-- Every instruction completes: no address is out of range. -/
theorem execWith_completes_of_wrap {c : Config} (hc : c.outOfRange = .wrap) (i : Instr) (s : State) :
    ∃ w, StageWrites c i s w ∧ ((∃ p, execWith c i s = w.setPc p) ∨ execWith c i s = w.halt) := by
  cases h : stage c i s with
  | advance w => exact ⟨w, .inl h, .inl ⟨_, by rw [execWith, h, commit_advance_of_wrap hc]⟩⟩
  | override w p => exact ⟨w, .inr (.inl ⟨p, h⟩), .inl ⟨p, by rw [execWith, h, commit_override]⟩⟩
  | halt w => exact ⟨w, .inr (.inr h), .inr (by rw [execWith, h, commit_halt])⟩
  | raise cause info =>
    obtain ⟨hop, -⟩ := stage_raise h
    cases i <;> cases hop
    rw [stage, callStage_of_wrap hc] at h
    cases h

theorem execWith_run_of_wrap {c : Config} (hc : c.outOfRange = .wrap) (i : Instr) {s : State} (hr : s.run = .running) :
    (execWith c i s).run ≠ .faulted := by
  obtain ⟨w, hw, ⟨p, e⟩ | e⟩ := execWith_completes_of_wrap hc i s
  · obtain ⟨-, hrun, -⟩ := stage_pc_run_fault hw
    simp [e, hrun, hr]
  · simp [e]

/-- A decode that fails has all its bytes, so it takes one of the other two faults. -/
theorem raiseDecode_of_wrap {c : Config} (hc : c.outOfRange = .wrap) {s : State} {e : DecodeError}
    (h : fetch c s = .error e) :
    ∃ cause info, s.raiseDecode e = s.raise cause info ∧ cause ≠ .addressOutOfRange := by
  have hp := fetch_error h
  cases e with
  | invalidInstruction ir => exact ⟨_, _, rfl, by decide⟩
  | invalidRegisterReference b => exact ⟨_, _, rfl, by decide⟩
  | missingByte k =>
    obtain ⟨hk, hnone⟩ := hp
    have hge : 3 ≤ k := by simpa [fetchBytes_of_wrap hc] using hnone
    omega

/-- Settles O17: under `wrap` every address resolves mod 256, so only a failed decode faults, for another cause; under
`fault` the advance above 255 resolves to nothing. -/
theorem addressPolicyWrapOrFault : Obligations.AddressPolicyWrapOrFault := by
  refine ⟨?_, fun c s hc => fetchBytes_of_wrap hc s, ?_, ?_, ?_⟩
  · intro c s t f hc hstep hrun hfault
    obtain ⟨hr, ⟨e, he, rfl⟩ | ⟨i, -, rfl⟩⟩ := stepWith_cases hstep
    · obtain ⟨cause, info, hraise, hcause⟩ := raiseDecode_of_wrap hc he
      rw [hraise, State.raise_fault] at hfault
      cases hfault
      exact hcause
    · exact absurd hrun (execWith_run_of_wrap hc i hr)
  · intro c s i hc hadv
    obtain ⟨w, hw⟩ := stage_of_advances c hadv
    rw [execWith, hw, commit_advance_of_wrap hc, State.setPc_pc]
  · intro c s n f r hc hwf
    rw [execWith, stage, callStage_of_wrap hc, commit_override, State.readByte_setPc, State.readByte_decrementSp]
    exact State.readByte_writeByte_self hwf _ _
  · intro c s i hc hadv hgt
    obtain ⟨w, hw⟩ := stage_of_advances c hadv
    rw [execWith, hw, commit_advance_of_gt hc _ hgt]
    exact takesFault_raise s _ _

/-! ## Which instructions store, and where -/

theorem storeAddress_eq_some {i : Instr} {s : State} {a : Byte} (h : i.storeAddress s = some a) :
    a = s.pushAddress := by
  cases i with
  | push | call => exact (Option.some.inj h).symm
  | hlt | ldi | pop | prn | add | mul | cmp | ret | jmp | jeq | jne | jgt | jlt | jle | jge => cases h

/-- Settles O33: a completed instruction holds its stage's memory, and the stage's frame names the one byte it stores. -/
theorem onlyPushAndCallWriteMemory : Obligations.OnlyPushAndCallWriteMemory := by
  intro i s t he hr
  obtain ⟨w, hw, -, hmem, -⟩ := exec_eq_stage he hr
  have frame := stage_frame hw
  refine ⟨fun a ha => ⟨storeAddress_eq_some ha, fun b hb => ?_⟩, fun hnone b => ?_⟩
  · obtain ⟨v, hv⟩ := frame.store a ha
    rw [readByte_congr (hmem.trans hv), State.readByte_writeByte_ne s a v hb]
  · rw [readByte_congr (hmem.trans (frame.mem hnone))]

/-! ## The byte a PUSH and a CALL store -/

/-- PUSH stores its register, read after the decrement of `sp` (R153, D21). -/
theorem stageWrites_push_mem {c : Config} {n : Count} {r : Reg} {s w : State} (h : StageWrites c (.push n r) s w) :
    w.mem = (s.writeByte s.pushAddress (if r = 7 then s.reg 7 - 1 else s.reg r)).mem := by
  obtain rfl : w = s.decrementSp.writeByte s.decrementSp.sp (s.decrementSp.reg r) := by
    simpa [StageWrites, stage, pushStage, eq_comm] using h
  rw [State.sp_decrementSp, State.reg_decrementSp]
  rfl

/-- CALL stores its return address (R120). -/
theorem stageWrites_call_mem {c : Config} {n : Count} {f : Bool} {r : Reg} {s w : State}
    (h : StageWrites c (.call n f r) s w) : w.mem = (s.writeByte s.pushAddress (s.pc + 2)).mem := by
  unfold StageWrites at h
  rw [stage, callStage] at h
  split at h
  · simp at h
  · next ret hret =>
    obtain rfl : w = (s.writeByte s.pushAddress ret).decrementSp := by simpa [eq_comm] using h
    obtain rfl := resolveAddress_eq_some hret
    rw [ofNat_toNat_add]
    rfl

/-! ## What the next step does with an instruction byte -/

/-- The data category's `op` 1 selects HLT (R66, R67). -/
theorem selectOp_hlt {ir : Byte} (hs : irSpecial ir = false) (ha : irAlu ir = false) (ho : irOp ir = 1) :
    selectOp Config.default ir = some .hlt := by
  have hcat : irCategory ir = .data := by simp [irCategory, hs, ha]
  simp [selectOp, hcat, ho, Config.default, defaultOpcodes, Op.category]

/-- A step at a HLT byte halts there (R155). -/
theorem step_of_selectOp_hlt {s : State} (hr : s.run = .running) (h : selectOp Config.default s.ir = some .hlt) :
    step s = .next s.halt := by
  have hfetch : fetch Config.default s = .ok (.hlt (irCount s.ir)) := by
    rw [fetch_eq, h]
    rfl
  rw [step_of_fetch_ok hr hfetch]
  rfl

/-- A step at a byte that no table holds takes its fault (R83). -/
theorem step_of_selectOp_none {s : State} (hr : s.run = .running) (h : selectOp Config.default s.ir = none) :
    step s = .next (s.raise .invalidInstruction s.ir.toNat) := by
  have hfetch : fetch Config.default s = .error (.invalidInstruction s.ir) := by rw [fetch_eq, h]
  rw [step_of_fetch_error hr hfetch]
  rfl

/-- Settles O39: both stores are one write at `sp - 1`, and the next fetch reads the address just written. -/
theorem storedByteIsFetchedNext : Obligations.StoredByteIsFetchedNext := by
  intro s t v hwf hrun hpc hstore
  have hmem : t.mem = (s.writeByte s.pushAddress v).mem := by
    have hr : t.run ≠ .faulted := by simp [hrun]
    rcases hstore with ⟨n, r, he, rfl⟩ | ⟨n, f, r, he, rfl⟩
    · obtain ⟨w, hw, -, hmem, -⟩ := exec_eq_stage he hr
      exact hmem.trans (stageWrites_push_mem hw)
    · obtain ⟨w, hw, -, hmem, -⟩ := exec_eq_stage he hr
      exact hmem.trans (stageWrites_call_mem hw)
  obtain rfl : t.ir = v := by
    rw [State.ir, hpc, readByte_congr hmem, State.readByte_writeByte_self hwf]
  refine ⟨rfl, fun hs ha ho => step_of_selectOp_hlt hrun (selectOp_hlt hs ha ho), fun hnone => ?_⟩
  rw [step_of_selectOp_none hrun hnone]
  exact takesFault_raise t _ _

end Sys2Proof.Machine

/-! SUPPORT. Encoding (30_encoding.md): what the table lookup selects in a configuration with a valid opcode table, what
the operand read answers, and the decoder as the inverse of the encoder. -/

namespace Sys2Proof

/-! ## The instruction byte as its four fields (R61, R62) -/

/-- Two instruction bytes are the same exactly when their fields are. -/
theorem headByte_inj {n n' : Count} {a a' s s' : Bool} {op op' : BitVec 4} :
    headByte n a s op = headByte n' a' s' op' ↔ n = n' ∧ s = s' ∧ a = a' ∧ op = op' := by
  refine ⟨fun h => ⟨?_, ?_, ?_, ?_⟩, by rintro ⟨rfl, rfl, rfl, rfl⟩; rfl⟩
  · simpa using congrArg irCount h
  · simpa using congrArg irSpecial h
  · simpa using congrArg irAlu h
  · simpa using congrArg irOp h

/-- The category in terms of the two flags: `A` says something only outside the special category. -/
theorem irCategory_eq_iff {ir : Byte} {cat : Category} : irCategory ir = cat ↔
    irSpecial ir = (cat == .special) ∧ (cat ≠ .special → irAlu ir = (cat == .alu)) := by
  cases hs : irSpecial ir with
  | true => cases cat <;> simp [irCategory, hs]
  | false => cases ha : irAlu ir <;> cases cat <;> simp [irCategory, hs, ha]

theorem irCategory_headByte {n : Count} {a : Bool} {cat : Category} {op : BitVec 4}
    (ha : cat ≠ .special → a = (cat == .alu)) : irCategory (headByte n a (cat == .special) op) = cat :=
  irCategory_eq_iff.mpr ⟨irSpecial_headByte .., by simpa using ha⟩

theorem Instr.aluFlag_eq {i : Instr} (h : i.op.category ≠ .special) : i.aluFlag = (i.op.category == .alu) := by
  cases i with
  | hlt | ldi | push | pop | prn | add | mul | cmp => rfl
  | call | ret | jmp | jeq | jne | jgt | jlt | jle | jge => exact absurd rfl h

@[simp] theorem irCategory_canonicalByte (row : OpcodeRow) : irCategory (canonicalByte row) = row.1.category :=
  irCategory_headByte fun _ => rfl

@[simp] theorem irOp_canonicalByte (row : OpcodeRow) : irOp (canonicalByte row) = row.2 := irOp_headByte ..

@[simp] theorem Instr.irCategory_head (c : Config) (i : Instr) : irCategory (i.head c) = i.op.category :=
  irCategory_headByte Instr.aluFlag_eq

@[simp] theorem Instr.irOp_head (c : Config) (i : Instr) : irOp (i.head c) = c.opcodeOf i.op := irOp_headByte ..

@[simp] theorem Instr.irCount_head (c : Config) (i : Instr) : irCount (i.head c) = i.count := irCount_headByte ..

@[simp] theorem Instr.irAlu_head (c : Config) (i : Instr) : irAlu (i.head c) = i.aluFlag := irAlu_headByte ..

/-- Fields that agree make the same byte; the flag `S` is part of the category. -/
theorem Instr.head_eq_of_fields {c : Config} {i : Instr} {ir : Byte} (hn : i.count = irCount ir)
    (ha : i.aluFlag = irAlu ir) (hcat : irCategory ir = i.op.category) (hop : irOp ir = c.opcodeOf i.op) :
    i.head c = ir := by
  obtain ⟨hs, -⟩ := irCategory_eq_iff.mp hcat
  rw [Instr.head, hn, ha, ← hs, ← hop, headByte_fields]

/-! ## The rows of a valid opcode table (R66, R71) -/

/-- No two rows of one category share an `op` value (R71). -/
theorem Config.Valid.row_unique {c : Config} (h : c.Valid) {p q : OpcodeRow} (hp : p ∈ c.opcodes) (hq : q ∈ c.opcodes)
    (hcat : p.1.category = q.1.category) (hop : p.2 = q.2) : p = q := by
  obtain ⟨-, -, hpair⟩ := h
  have hsymm : Std.Symm fun p q : OpcodeRow => p.1.category = q.1.category → p.2 ≠ q.2 :=
    ⟨fun p q hpq hcat => (hpq hcat.symm).symm⟩
  by_contra hne
  exact hpair.forall hp hq hne hcat hop

/-- Each instruction stands in one row (R66), so the rows are the pairs of an instruction and its `op` value. -/
theorem Config.Valid.mem_opcodes_iff {c : Config} (h : c.Valid) {row : OpcodeRow} :
    row ∈ c.opcodes ↔ row = (row.1, c.opcodeOf row.1) := by
  refine ⟨fun hrow => ?_, fun e => e ▸ h.mem_row row.1⟩
  have ⟨_, hnodup, _⟩ := h
  exact List.inj_on_of_nodup_map hnodup hrow (h.mem_row row.1) rfl

/-- A search finds the element with a property that no two elements of the list have. -/
theorem find?_eq_some_iff_of_unique {α : Type} {p : α → Bool} {l : List α} {x : α}
    (unique : ∀ y ∈ l, ∀ z ∈ l, p y = true → p z = true → y = z) : l.find? p = some x ↔ x ∈ l ∧ p x = true := by
  refine ⟨fun h => ⟨List.mem_of_find?_eq_some h, List.find?_some h⟩, fun ⟨hx, hp⟩ => ?_⟩
  cases h : l.find? p with
  | none => exact absurd hp (List.find?_eq_none.mp h x hx)
  | some y => rw [unique y (List.mem_of_find?_eq_some h) x hx (List.find?_some h) hp]

/-- What the search by category and `op` finds: the one row that has both. -/
theorem Config.Valid.find?_row_eq_some_iff {c : Config} (h : c.Valid) {ir : Byte} {row : OpcodeRow} :
    (c.opcodes.find? fun row => row.1.category == irCategory ir && row.2 == irOp ir) = some row ↔
      row ∈ c.opcodes ∧ irCategory ir = row.1.category ∧ irOp ir = row.2 := by
  rw [find?_eq_some_iff_of_unique, Bool.and_eq_true, beq_iff_eq, beq_iff_eq, eq_comm, eq_comm (a := row.2)]
  intro p hp q hq hpir hqir
  rw [Bool.and_eq_true, beq_iff_eq, beq_iff_eq] at hpir hqir
  exact h.row_unique hp hq (hpir.1.trans hqir.1.symm) (hpir.2.trans hqir.2.symm)

/-! ## The table lookup (R67, R83) -/

/-- A byte selects the instruction whose category and `op` it holds, under `STRICT_DECODE` only if it is canonical. -/
theorem selectOp_eq_some_iff {c : Config} (h : c.Valid) {ir : Byte} {o : Op} :
    selectOp c ir = some o ↔ irCategory ir = o.category ∧ irOp ir = c.opcodeOf o ∧
      (c.strictDecode = true → ir = canonicalByte (o, c.opcodeOf o)) := by
  unfold selectOp
  constructor
  · intro hsel
    split at hsel
    · cases hsel
    · next row hfind =>
      obtain ⟨hmem, hcat, hop⟩ := h.find?_row_eq_some_iff.mp hfind
      have hrow := h.mem_opcodes_iff.mp hmem
      split at hsel
      · cases hsel
      · next hstrict =>
        cases hsel
        rw [← hrow]
        exact ⟨hcat, by rw [hop, hrow], by simpa using hstrict⟩
  · rintro ⟨hcat, hop, hstrict⟩
    rw [h.find?_row_eq_some_iff.mpr ⟨h.mem_row o, hcat, hop⟩]
    exact if_neg (by simpa using hstrict)

/-- Without `STRICT_DECODE` the category and the `op` alone select. -/
theorem selectOp_eq_some_iff_of_lax {c : Config} (h : c.Valid) (hc : c.strictDecode = false) {ir : Byte} {o : Op} :
    selectOp c ir = some o ↔ irCategory ir = o.category ∧ irOp ir = c.opcodeOf o := by
  simp [selectOp_eq_some_iff h, hc]

/-- With `STRICT_DECODE` the canonical byte alone selects. -/
theorem selectOp_eq_some_iff_of_strict {c : Config} (h : c.Valid) (hc : c.strictDecode = true) {ir : Byte} {o : Op} :
    selectOp c ir = some o ↔ ir = canonicalByte (o, c.opcodeOf o) := by
  rw [selectOp_eq_some_iff h]
  refine ⟨fun ⟨_, _, hir⟩ => hir hc, ?_⟩
  rintro rfl
  simp

/-- The check of an instruction's count and ALU flag says that its byte is the canonical one, where that is asked. -/
theorem Instr.headWellFormed_iff {c : Config} {i : Instr} : i.headWellFormed c = true ↔
    (c.strictDecode = true → i.head c = canonicalByte (i.op, c.opcodeOf i.op)) := by
  rw [Instr.head, canonicalByte, headByte_inj]
  cases hc : c.strictDecode <;> simp [Instr.headWellFormed, hc]

/-- The byte of an instruction selects it exactly when it is one of the bytes the configuration takes. -/
theorem selectOp_head_iff {c : Config} (h : c.Valid) {i : Instr} :
    selectOp c (i.head c) = some i.op ↔ i.headWellFormed c = true := by
  simp [selectOp_eq_some_iff h, Instr.headWellFormed_iff]

/-! ## What the operand read answers (R63, R65, R84) -/

theorem operandByte_ok {bytes : List Byte} {k : Nat} {b : Byte} (h : operandByte bytes k = .ok b) :
    bytes[k]? = some b := by
  unfold operandByte at h
  split at h
  · next hb => cases h; exact hb
  · cases h

theorem operandReg_ok {bytes : List Byte} {k : Nat} {r : Reg} (h : operandReg bytes k = .ok r) :
    bytes[k]? = some (regByte r) := by
  unfold operandReg at h
  split at h
  · next b hb => rw [operandByte_ok hb, regByte_of_regRef h]
  · cases h

theorem singleton_prefix_of_getElem? {ir x : Byte} {tail : List Byte} (hx : (ir :: tail)[1]? = some x) :
    [x] <+: tail := by
  cases tail with
  | nil => cases hx
  | cons y tail => cases hx; exact List.cons_prefix_cons.mpr ⟨rfl, List.nil_prefix⟩

theorem pair_prefix_of_getElem? {ir x y : Byte} {tail : List Byte} (hx : (ir :: tail)[1]? = some x)
    (hy : (ir :: tail)[2]? = some y) : [x, y] <+: tail := by
  cases tail with
  | nil => cases hx
  | cons z tail => cases hx; exact List.cons_prefix_cons.mpr ⟨rfl, singleton_prefix_of_getElem? (ir := ir) hy⟩

theorem readF1R_ok {ir : Byte} {tail : List Byte} {mk : Reg → Instr} {i : Instr}
    (h : readF1R (ir :: tail) mk = .ok i) : ∃ r, i = mk r ∧ [regByte r] <+: tail := by
  unfold readF1R at h
  split at h
  · next r hr => cases h; exact ⟨r, rfl, singleton_prefix_of_getElem? (operandReg_ok hr)⟩
  · cases h

theorem readF2RR_ok {ir : Byte} {tail : List Byte} {mk : Reg → Reg → Instr} {i : Instr}
    (h : readF2RR (ir :: tail) mk = .ok i) : ∃ a b, i = mk a b ∧ [regByte a, regByte b] <+: tail := by
  unfold readF2RR at h
  split at h
  · cases h
  · next a ha =>
    split at h
    · next b hb =>
      cases h
      exact ⟨a, b, rfl, pair_prefix_of_getElem? (operandReg_ok ha) (operandReg_ok hb)⟩
    · cases h

theorem readF2RI_ok {ir : Byte} {tail : List Byte} {mk : Reg → Byte → Instr} {i : Instr}
    (h : readF2RI (ir :: tail) mk = .ok i) : ∃ r imm, i = mk r imm ∧ [regByte r, imm] <+: tail := by
  unfold readF2RI at h
  split at h
  · cases h
  · next r hr =>
    split at h
    · next imm himm =>
      cases h
      exact ⟨r, imm, rfl, pair_prefix_of_getElem? (operandReg_ok hr) (operandByte_ok himm)⟩
    · cases h

/-- RET's read gives an index exactly where `RET_DECODES_OPERAND` asks for it (D9). -/
theorem readF0S_ok {c : Config} {ir : Byte} {tail : List Byte} {mk : Option Reg → Instr} {i : Instr}
    (h : readF0S c (ir :: tail) mk = .ok i) :
    (c.retDecodesOperand = true ∧ ∃ r, i = mk (some r) ∧ [regByte r] <+: tail) ∨
      (c.retDecodesOperand = false ∧ i = mk none) := by
  unfold readF0S at h
  split at h
  · next hc =>
    split at h
    · next r hr => cases h; exact .inl ⟨hc, r, rfl, singleton_prefix_of_getElem? (operandReg_ok hr)⟩
    · cases h
  · next hc => cases h; exact .inr ⟨by simpa using hc, rfl⟩

/-- Operands that are read back are the ones the encoder writes: RET's index is there exactly where it is decoded, a
special instruction keeps the ALU flag of its byte, and the bytes read are the operand bytes. -/
theorem readOperands_ok {c : Config} {n : Count} {f : Bool} {ir : Byte} {tail : List Byte} {o : Op} {i : Instr}
    (h : readOperands c n f (ir :: tail) o = .ok i) :
    i.retWellFormed c = true ∧ (o.category = .special → i.aluFlag = f) ∧ i.operandBytes <+: tail := by
  cases o with
  | hlt => cases h; exact ⟨rfl, nofun, List.nil_prefix⟩
  | ldi => obtain ⟨r, imm, rfl, hb⟩ := readF2RI_ok h; exact ⟨rfl, nofun, hb⟩
  | add | mul | cmp => obtain ⟨a, b, rfl, hb⟩ := readF2RR_ok h; exact ⟨rfl, nofun, hb⟩
  | push | pop | prn => obtain ⟨r, rfl, hb⟩ := readF1R_ok h; exact ⟨rfl, nofun, hb⟩
  | call | jmp | jeq | jne | jgt | jlt | jle | jge =>
    obtain ⟨r, rfl, hb⟩ := readF1R_ok h; exact ⟨rfl, fun _ => rfl, hb⟩
  | ret =>
    obtain ⟨hc, r, rfl, hb⟩ | ⟨hc, rfl⟩ := readF0S_ok h
    · exact ⟨by simp [Instr.retWellFormed, hc], fun _ => rfl, hb⟩
    · exact ⟨by simp [Instr.retWellFormed, hc], fun _ => rfl, List.nil_prefix⟩

/-- The operands of every instruction are read back from the bytes the encoder writes for them. -/
theorem readOperands_operandBytes : ∀ i : Instr, Laws.OperandRead.Statement i
  | .hlt n => Laws.OperandRead.hlt n
  | .ldi n r imm => Laws.OperandRead.ldi n r imm
  | .push n r => Laws.OperandRead.push n r
  | .pop n r => Laws.OperandRead.pop n r
  | .prn n r => Laws.OperandRead.prn n r
  | .add n a b => Laws.OperandRead.add n a b
  | .mul n a b => Laws.OperandRead.mul n a b
  | .cmp n a b => Laws.OperandRead.cmp n a b
  | .call n f r => Laws.OperandRead.call n f r
  | .ret n f ignored => Laws.OperandRead.ret n f ignored
  | .jmp n f r => Laws.OperandRead.jmp n f r
  | .jeq n f r => Laws.OperandRead.jeq n f r
  | .jne n f r => Laws.OperandRead.jne n f r
  | .jgt n f r => Laws.OperandRead.jgt n f r
  | .jlt n f r => Laws.OperandRead.jlt n f r
  | .jle n f r => Laws.OperandRead.jle n f r
  | .jge n f r => Laws.OperandRead.jge n f r

/-! ## The decoder and the encoder -/

/-- A decode is a lookup of the first byte, then an operand read. -/
theorem decode_cons_of_selectOp {c : Config} {ir : Byte} {o : Op} (h : selectOp c ir = some o) (tail : List Byte) :
    decode c (ir :: tail) = readOperands c (irCount ir) (irAlu ir) (ir :: tail) o := by
  simp only [decode, h]

theorem decode_cons_of_none {c : Config} {ir : Byte} (h : selectOp c ir = none) (tail : List Byte) :
    decode c (ir :: tail) = .error (.invalidInstruction ir) := by
  simp only [decode, h]

/-- Bytes that decode start with a byte that selects the instruction, and its operands are read from them. -/
theorem decode_ok {c : Config} {bytes : List Byte} {i : Instr} (h : decode c bytes = .ok i) :
    ∃ ir tail, bytes = ir :: tail ∧ selectOp c ir = some i.op ∧ i.count = irCount ir ∧
      readOperands c (irCount ir) (irAlu ir) (ir :: tail) i.op = .ok i := by
  cases bytes with
  | nil => cases h
  | cons ir tail =>
    cases hsel : selectOp c ir with
    | none => rw [decode_cons_of_none hsel] at h; cases h
    | some o =>
      rw [decode_cons_of_selectOp hsel] at h
      obtain ⟨rfl, hn⟩ := Machine.op_of_readOperands h
      exact ⟨ir, tail, rfl, hsel, hn, h⟩

/-- Settles O6: the instruction byte selects the instruction back, its fields are the count and the ALU flag, and the
operand read inverts the operand bytes. -/
theorem decodeInvertsEncode : Obligations.DecodeInvertsEncode := by
  intro c i rest hc hwf
  obtain ⟨hhead, hret⟩ : i.headWellFormed c = true ∧ i.retWellFormed c = true := by
    simpa [Instr.wellFormed] using hwf
  have hread := readOperands_operandBytes i c (i.head c) rest hret
  rw [encode, List.cons_append, decode_cons_of_selectOp ((selectOp_head_iff hc).mpr hhead), Instr.irCount_head,
    Instr.irAlu_head, hread]

/-- Settles O7: the first byte's four fields are those of the instruction it selects, so it is the instruction's byte,
and the operand bytes follow it. -/
theorem decodedBytesAreTheEncoding : Obligations.DecodedBytesAreTheEncoding := by
  intro c bytes i hc h
  obtain ⟨ir, tail, rfl, hsel, hn, hread⟩ := decode_ok h
  obtain ⟨hcat, hop, -⟩ := (selectOp_eq_some_iff hc).mp hsel
  obtain ⟨hret, hspecial, hbytes⟩ := readOperands_ok hread
  have halu : i.aluFlag = irAlu ir := by
    by_cases hs : i.op.category = .special
    · exact hspecial hs
    · obtain ⟨-, ha⟩ := irCategory_eq_iff.mp hcat
      rw [Instr.aluFlag_eq hs, ha hs]
  obtain rfl : i.head c = ir := Instr.head_eq_of_fields hn halu hcat hop
  refine ⟨?_, List.cons_prefix_cons.mpr ⟨rfl, hbytes⟩⟩
  rw [Instr.wellFormed, (selectOp_head_iff hc).mp hsel, hret, Bool.and_self]

/-! ## Match and mask (R67) -/

/-- The mask of the data and ALU categories clears the count. -/
theorem and_0x3F_eq_headByte (ir : Byte) : ir &&& 0x3F = headByte 0 (irAlu ir) (irSpecial ir) (irOp ir) := by
  revert ir; decide

/-- The mask of the special category clears the ALU flag too. -/
theorem and_0x1F_eq_headByte (ir : Byte) : ir &&& 0x1F = headByte 0 false (irSpecial ir) (irOp ir) := by
  revert ir; decide

theorem setWidth_eq_headByte (op : BitVec 4) : op.setWidth 8 = headByte 0 false false op := by
  revert op; decide

theorem or_0x20_eq_headByte (op : BitVec 4) : 0x20 ||| op.setWidth 8 = headByte 0 true false op := by
  revert op; decide

theorem or_0x10_eq_headByte (op : BitVec 4) : 0x10 ||| op.setWidth 8 = headByte 0 false true op := by
  revert op; decide

/-- Settles O8: a masked byte is the byte of the fields the mask keeps, and the table's pattern is the byte of the
category's flags with the `op` value. -/
theorem lookupIsByMatchAndMask : Obligations.LookupIsByMatchAndMask := by
  refine ⟨fun c ir o hc hlax => ?_, fun c ir o hc hstrict => selectOp_eq_some_iff_of_strict hc hstrict,
    fun c ir rest hnone => decode_cons_of_none hnone rest⟩
  rw [selectOp_eq_some_iff_of_lax hc hlax, irCategory_eq_iff]
  cases o.category with
  | data => rw [and_0x3F_eq_headByte, setWidth_eq_headByte, headByte_inj]; simp [and_assoc, beq_eq_decide]
  | alu => rw [and_0x3F_eq_headByte, or_0x20_eq_headByte, headByte_inj]; simp [and_assoc, beq_eq_decide]
  | special => rw [and_0x1F_eq_headByte, or_0x10_eq_headByte, headByte_inj]; simp

/-! ## Illegal encodings (R68) -/

/-- The `op` values that R66 lists in each category. -/
def Category.listedOps : Category → List Nat
  | .data => [1, 2, 5, 6, 7]
  | .alu => [0, 2, 7]
  | .special => [0, 1, 4, 5, 6, 7, 8, 9, 10]

theorem opcodeOf_default_mem_listedOps (o : Op) : (Config.default.opcodeOf o).toNat ∈ o.category.listedOps := by
  cases o <;> decide

/-- An `op` value that R66 does not list in the byte's category selects nothing. -/
theorem selectOp_default_eq_none {ir : Byte} (h : (irOp ir).toNat ∉ (irCategory ir).listedOps) :
    selectOp Config.default ir = none := by
  cases hsel : selectOp Config.default ir with
  | none => rfl
  | some o =>
    obtain ⟨hcat, hop, -⟩ := (selectOp_eq_some_iff Config.default_valid).mp hsel
    rw [hcat, hop] at h
    exact absurd (opcodeOf_default_mem_listedOps o) h

/-- Settles O13: each of R68's three lists has no value in common with its category's list in R66. -/
theorem illegalEncodingsRaiseInvalidInstruction : Obligations.IllegalEncodingsRaiseInvalidInstruction := by
  intro s hrun hillegal
  have hnone : selectOp Config.default s.ir = none := by
    apply selectOp_default_eq_none
    rcases hillegal with ⟨hs, ha, hop⟩ | ⟨hs, ha, hop⟩ | ⟨hs, hop⟩
    · rw [show irCategory s.ir = .data from irCategory_eq_iff.mpr ⟨hs, fun _ => ha⟩]
      exact (by decide : ∀ v ∈ _, v ∉ Category.data.listedOps) _ hop
    · rw [show irCategory s.ir = .alu from irCategory_eq_iff.mpr ⟨hs, fun _ => ha⟩]
      exact (by decide : ∀ v ∈ _, v ∉ Category.alu.listedOps) _ hop
    · rw [show irCategory s.ir = .special from irCategory_eq_iff.mpr ⟨hs, nofun⟩]
      exact (by decide : ∀ v ∈ _, v ∉ Category.special.listedOps) _ hop
  rw [Machine.step_of_selectOp_none hrun hnone]
  exact Machine.takesFault_raise s _ _

/-! ## The assembly forms (R74) -/

/-- Bytes that are the encoding of an instruction decode to it. -/
theorem decode_default_of_encode_eq {i : Instr} {bytes : List Byte} (he : encode Config.default i = bytes)
    (hwf : i.wellFormed Config.default = true) : decode Config.default bytes = .ok i := by
  have h := decodeInvertsEncode Config.default i [] Config.default_valid hwf
  rwa [List.append_nil, he] at h

/-- Settles O5: the bytes listed are the encodings, so it is O6 with nothing after them. -/
theorem canonicalWordsDecode : Obligations.CanonicalWordsDecode := by
  refine ⟨fun a b r imm => ⟨?_, ?_, ?_, ?_, ?_, ?_, ?_⟩, fun r => ⟨?_, ?_, ?_, ?_, ?_, ?_, ?_, ?_, ?_⟩, ?_, by decide⟩
  all_goals
    refine decode_default_of_encode_eq ?_ rfl
    dsimp only [encode, Instr.head, Instr.count, Instr.aluFlag, Instr.op]
    rfl

end Sys2Proof

/-! SUPPORT. The cycle (40_cycle.md): a step as the decoded instruction, the states that have a step, and the run state
and fault record that a step leads to. -/

namespace Sys2Proof

/-! ## Fetching the instruction whose bytes stand at `pc` -/

theorem Instr.operandBytes_length_le (i : Instr) : i.operandBytes.length ≤ 2 := by
  cases i with
  | ret n f ignored => cases ignored <;> simp [Instr.operandBytes]
  | hlt | ldi | push | pop | prn | add | mul | cmp | call | jmp | jeq | jne | jgt | jlt | jle | jge =>
    simp [Instr.operandBytes]

/-- The longest instruction has three bytes (R60). -/
theorem encode_length_le (c : Config) (i : Instr) : (encode c i).length ≤ 3 :=
  Nat.succ_le_succ i.operandBytes_length_le

namespace Machine

theorem State.bytesAt.of_prefix {s : State} {bytes bytes' : List Byte} (h : s.bytesAt bytes) (hp : bytes' <+: bytes) :
    s.bytesAt bytes' := by
  intro k hk
  rw [hp.getElem hk]
  exact h k (hk.trans_le hp.length_le)

/-- Up to three bytes that stand at `pc` are the first of those a fetch reads. -/
theorem prefix_fetchBytes {s : State} {bytes : List Byte} (h : s.bytesAt bytes) (hlen : bytes.length ≤ 3) :
    bytes <+: fetchBytes Config.default s := by
  rw [List.prefix_iff_getElem?]
  intro k hk
  obtain ⟨hle, hread⟩ := h k hk
  rw [fetchBytes_of_le s (by omega) hle, hread]

/-- An instruction whose encoding stands at `pc` is the one fetched (R81 to R84). -/
theorem fetch_of_encode_bytesAt {s : State} {i : Instr} (hwf : i.wellFormed Config.default = true)
    (h : s.bytesAt (encode Config.default i)) : fetch Config.default s = .ok i := by
  obtain ⟨rest, hrest⟩ := prefix_fetchBytes h (encode_length_le Config.default i)
  rw [fetch, ← hrest]
  exact decodeInvertsEncode Config.default i rest Config.default_valid hwf

/-- Settles O9: bytes that decode begin with the instruction's encoding, which the fetch then reads back. -/
theorem stepRunsTheDecodedInstruction : Obligations.StepRunsTheDecodedInstruction := by
  intro s bytes i hrun hbytes hdec
  obtain ⟨hwf, hprefix⟩ := decodedBytesAreTheEncoding Config.default bytes i Config.default_valid hdec
  exact ⟨hwf, step_of_fetch_ok hrun (fetch_of_encode_bytesAt hwf (hbytes.of_prefix hprefix))⟩

/-! ## The states that have a step (R90) -/

theorem step_of_halted {s : State} (h : s.run = .halted) : step s = .fault .alreadyHalted := by
  simp only [step, h]

theorem step_of_faulted {s : State} (h : s.run = .faulted) : step s = .fault .alreadyFaulted := by
  simp only [step, h]

theorem exists_step_of_running {s : State} (h : s.run = .running) : ∃ t, step s = .next t := by
  cases hf : fetch Config.default s with
  | ok i => exact ⟨_, (step_of_fetch_ok h hf).trans (exec_eq i s)⟩
  | error e => exact ⟨_, step_of_fetch_error h hf⟩

theorem exists_fault_of_not_running {s : State} (h : s.run ≠ .running) : ∃ r, step s = .fault r := by
  cases hr : s.run with
  | running => exact absurd hr h
  | halted => exact ⟨_, step_of_halted hr⟩
  | faulted => exact ⟨_, step_of_faulted hr⟩

/-- A run stops at the first host fault, however many steps are asked for. -/
theorem run_of_step_fault {s : State} {r : Fault} (h : step s = .fault r) (k : Nat) :
    Host.Core.run core (k + 1) s = .fault r := by
  have hcore : core.step s = .fault r := h
  simp only [Host.Core.run, hcore]

theorem accept_step_of_fault {s : State} {r : Fault} (h : step s = .fault r) : s.accept .step = some s := by
  simp only [State.accept, h]

/-- A booted machine is Running (R200, R204). -/
theorem run_of_bootWith {c : Config} {image : List Nat} {s : State} (h : bootWith c image = some s) :
    s.run = .running := by
  unfold bootWith at h
  split at h
  · cases h; rfl
  · cases h

/-- Settles O10: only Running reaches the fetch, and what follows it always answers a next state. -/
theorem stepExistsExactlyWhileRunning : Obligations.StepExistsExactlyWhileRunning := by
  refine ⟨fun s => ⟨?_, exists_step_of_running⟩, fun s k h => run_of_step_fault (step_of_halted h) k,
    fun s k h => run_of_step_fault (step_of_faulted h) k, fun s h => ?_, fun s t image h => run_of_bootWith h⟩
  · rintro ⟨t, ht⟩
    exact (step_cases ht).1
  · obtain ⟨r, hr⟩ := exists_fault_of_not_running h
    exact accept_step_of_fault hr

/-! ## The run state after an instruction (R86, R89) -/

theorem op_eq_hlt_iff {i : Instr} : i.op = .hlt ↔ ∃ n, i = .hlt n := by
  refine ⟨fun h => ?_, fun ⟨n, h⟩ => h ▸ rfl⟩
  cases i <;> cases h
  exact ⟨_, rfl⟩

/-- HLT's is the only stage that halts (R155). -/
theorem op_eq_hlt_of_halt {c : Config} {i : Instr} {s w : State} (h : stage c i s = .halt w) : i.op = .hlt := by
  cases i with
  | hlt => rfl
  | call n f r =>
    simp only [stage, callStage] at h
    split at h <;> cases h
  | jeq n f r | jne n f r | jgt n f r | jlt n f r | jle n f r | jge n f r =>
    simp only [stage, jeqStage, jneStage, jgtStage, jltStage, jleStage, jgeStage, branchStage] at h
    split at h <;> cases h
  | ldi | push | pop | prn | add | mul | cmp | ret | jmp => cases h

theorem op_ne_hlt_of_override {c : Config} {i : Instr} {s w : State} {p : Byte} (h : stage c i s = .override w p) :
    i.op ≠ .hlt := by
  rintro hop
  obtain ⟨n, rfl⟩ := op_eq_hlt_iff.mp hop
  cases h

/-- `STATE` and `FAULT` after an instruction: HLT halts; another one keeps both or takes a fault. -/
theorem execWith_status (c : Config) (i : Instr) (s : State) :
    (i.op = .hlt ∧ (execWith c i s).run = .halted ∧ (execWith c i s).fault = s.fault) ∨
    (i.op ≠ .hlt ∧ (s.keepsStatus (execWith c i s) ∨ ∃ cause info, execWith c i s = s.raise cause info)) := by
  rcases commit_cases c i.count s (stage c i s) with
    ⟨w, p, h | h, e⟩ | ⟨w, h, e⟩ | ⟨w, h, -, e⟩ | ⟨cause, info, h, e⟩
  · obtain ⟨-, hrun, hfault⟩ := stage_pc_run_fault (.inl h)
    exact .inr ⟨op_ne_hlt_of_advance h, .inl (by simp [execWith, e, State.keepsStatus, hrun, hfault])⟩
  · obtain ⟨-, hrun, hfault⟩ := stage_pc_run_fault (.inr (.inl ⟨p, h⟩))
    exact .inr ⟨op_ne_hlt_of_override h, .inl (by simp [execWith, e, State.keepsStatus, hrun, hfault])⟩
  · obtain ⟨-, -, hfault⟩ := stage_pc_run_fault (.inr (.inr h))
    exact .inl ⟨op_eq_hlt_of_halt h, by simp [execWith, e, hfault]⟩
  · exact .inr ⟨op_ne_hlt_of_advance h, .inr ⟨_, _, e⟩⟩
  · obtain ⟨hop, -⟩ := stage_raise h
    exact .inr ⟨by simp [hop], .inr ⟨cause, info, e⟩⟩

/-- `STATE` and `FAULT` after a step: a HLT halts; otherwise both are kept or a fault is taken. -/
theorem step_status {s t : State} (h : step s = .next t) :
    ((∃ n, fetch Config.default s = .ok (.hlt n)) ∧ t.run = .halted ∧ t.fault = s.fault) ∨
    ((¬∃ n, fetch Config.default s = .ok (.hlt n)) ∧ (s.keepsStatus t ∨ ∃ cause info, t = s.raise cause info)) := by
  obtain ⟨-, ⟨e, he, rfl⟩ | ⟨i, hi, rfl⟩⟩ := step_cases h
  · obtain ⟨cause, info, hraise, -⟩ := raiseDecode_eq s e
    exact .inr ⟨by simp [he], .inr ⟨cause, info, hraise⟩⟩
  · have hhlt : (∃ n, fetch Config.default s = .ok (.hlt n)) ↔ i.op = .hlt := by simp [hi, op_eq_hlt_iff]
    rw [hhlt]
    exact execWith_status Config.default i s

theorem execWith_run_of_advance {i : Instr} {s w : State} (hr : s.run = .running)
    (h : stage Config.default i s = .advance w) : (execWith Config.default i s).run =
      if s.pc.toNat + 1 + i.count.toNat ≤ 255 then .running else .faulted := by
  obtain ⟨-, hrun, -⟩ := stage_pc_run_fault (.inl h)
  rw [execWith, h]
  split
  · next hle => rw [commit_advance_of_le _ _ hle, State.setPc_run, hrun, hr]
  · next hgt => rw [commit_advance_of_gt rfl _ (Nat.lt_of_not_le hgt), State.raise_run]

theorem execWith_run_of_override {c : Config} {i : Instr} {s w : State} {p : Byte} (hr : s.run = .running)
    (h : stage c i s = .override w p) : (execWith c i s).run = .running := by
  obtain ⟨-, hrun, -⟩ := stage_pc_run_fault (.inr (.inl ⟨p, h⟩))
  rw [execWith, h, commit_override, State.setPc_run, hrun, hr]

/-- Settles O11: a step halts at a HLT, keeps `STATE` and `FAULT`, or takes a fault with its record; which of them is
the outcome of the execute stage. -/
theorem runStateTransitions : Obligations.RunStateTransitions := by
  refine ⟨fun s t h => ?_, fun s t e h he => ?_, fun s t i h hi => ?_⟩
  · obtain ⟨hr, -⟩ := step_cases h
    obtain ⟨hhlt, hrun, hfault⟩ | ⟨hhlt, ⟨hrun, hfault⟩ | ⟨cause, info, rfl⟩⟩ := step_status h
    · simp [hr, hhlt, hrun, hfault]
    · simp [hr, hhlt, hrun, hfault]
    · simp [hr, hhlt]
  · obtain ⟨hr, -⟩ := step_cases h
    obtain ⟨cause, info, hraise, -⟩ := raiseDecode_eq s e
    obtain rfl : s.raiseDecode e = t := by simpa [step_of_fetch_error hr he] using h
    rw [hraise, State.raise_run]
  · obtain ⟨hr, -⟩ := step_cases h
    obtain rfl : execWith Config.default i s = t := by simpa [step_of_fetch_ok hr hi, exec_eq] using h
    split
    · next w hw => exact execWith_run_of_advance hr hw
    · next w p hw => exact execWith_run_of_override hr hw
    · next w hw => rw [execWith, hw, commit_halt, State.halt_run]
    · next cause info hw => rw [execWith, hw, commit_raise, State.raise_run]

end Machine
end Sys2Proof

/-! SUPPORT. The ALU (41_alu.md): what an instruction that advances changes and keeps, the operand faults of every
format, the comparison on naturals, and the causes a step can take. -/

namespace Sys2Proof.Machine

/-! ## An instruction that advances (R86) -/

/-- An instruction that advances, stores nothing and puts nothing out answers a state with the registers and the flags
its stage left, at `pc + 1 + n`, and keeps everything else. -/
theorem exec_of_advance_frame {i : Instr} {s w : State} (h : stage Config.default i s = .advance w)
    (hstore : i.storeAddress s = none) (hprn : i.op ≠ .prn) (hle : s.pc.toNat + 1 + i.count.toNat ≤ 255) :
    ∃ t, exec i s = .next t ∧ (∀ q, t.reg q = w.reg q) ∧ t.flags = w.flags ∧ s.keepsRegsExcept t i.writtenRegs ∧
      t.pc.toNat = s.pc.toNat + 1 + i.count.toNat ∧ s.keepsRest t := by
  obtain ⟨q, hq, he⟩ := exec_of_advance h hle
  have frame := stage_frame (.inl h)
  obtain ⟨-, hrun, hfault⟩ := stage_pc_run_fault (.inl h)
  exact ⟨w.setPc q, he, fun _ => rfl, rfl, frame.regs, hq, fun a => readByte_congr (frame.mem hstore) a,
    frame.out hprn, hrun, hfault⟩

/-- Where the next address does not exist, it takes the fault. -/
theorem takesFault_of_advance_gt {i : Instr} {s w : State} (h : stage Config.default i s = .advance w)
    (hgt : 255 < s.pc.toNat + 1 + i.count.toNat) :
    TakesFault (exec i s) s .addressOutOfRange (s.pc.toNat + 1 + i.count.toNat) := by
  rw [exec_of_advance_gt h hgt]
  exact takesFault_raise s _ _

/-! ## The operand faults (R84, R172) -/

/-- The first operand byte is checked first, in every format that has one. -/
theorem readOperands_error_of_first {n : Count} {f : Bool} {bytes : List Byte} {o : Op} {e : DecodeError}
    (ho : o.format ≠ .f0) (h : operandReg bytes 1 = .error e) :
    readOperands Config.default n f bytes o = .error e := by
  cases o with
  | hlt => exact absurd rfl ho
  | ldi => simp only [readOperands, readF2RI, h]
  | add | mul | cmp => simp only [readOperands, readF2RR, h]
  | ret => simp only [readOperands, readF0S, h, Config.default, if_true]
  | push | pop | prn | call | jmp | jeq | jne | jgt | jlt | jle | jge => simp only [readOperands, readF1R, h]

/-- After a legal first operand byte, a format of two register references checks the second as one. -/
theorem readOperands_error_of_second {c : Config} {n : Count} {f : Bool} {bytes : List Byte} {o : Op} {r : Reg}
    {e : DecodeError} (ho : o.format = .f2rr) (h1 : operandReg bytes 1 = .ok r)
    (h2 : operandReg bytes 2 = .error e) : readOperands c n f bytes o = .error e := by
  cases o with
  | add | mul | cmp => simp only [readOperands, readF2RR, h1, h2]
  | hlt | ldi | push | pop | prn | call | ret | jmp | jeq | jne | jgt | jlt | jle | jge => cases ho

/-- After a legal first operand byte, both formats with a second one need its address. -/
theorem readOperands_error_of_second_address {c : Config} {n : Count} {f : Bool} {bytes : List Byte} {o : Op} {r : Reg}
    {e : DecodeError} (ho : o.format = .f2rr ∨ o.format = .f2ri) (h1 : operandReg bytes 1 = .ok r)
    (h2 : operandByte bytes 2 = .error e) : readOperands c n f bytes o = .error e := by
  obtain ho | ho := ho
  · exact readOperands_error_of_second ho h1 (by simp only [operandReg, h2])
  · cases o with
    | ldi => simp only [readOperands, readF2RI, h1, h2]
    | hlt | push | pop | prn | add | mul | cmp | call | ret | jmp | jeq | jne | jgt | jlt | jle | jge => cases ho

/-- A step at a byte whose operand read fails takes the fault of that failure. -/
theorem step_of_readOperands_error {s : State} {o : Op} {e : DecodeError} (hr : s.run = .running)
    (hsel : selectOp Config.default s.ir = some o)
    (h : readOperands Config.default (irCount s.ir) (irAlu s.ir) (fetchBytes Config.default s) o = .error e) :
    step s = .next (s.raiseDecode e) :=
  step_of_fetch_error hr (by rw [fetch_eq, hsel]; exact h)

/-- The first operand byte as a register reference, where it is one. -/
theorem operandReg_one_of_lt {s : State} (hpc : s.pc.toNat ≤ 254) (h : (s.mem.read (s.pc.toNat + 1)).toNat < 8) :
    operandReg (fetchBytes Config.default s) 1 = .ok ⟨(s.mem.read (s.pc.toNat + 1)).toNat, h⟩ := by
  rw [operandReg_one_of_le hpc, regRef_of_lt h]

/-- Every byte that selects an instruction takes the operand faults of the instruction's format. -/
theorem operandFaults_of_selectOp {ir : Byte} {o : Op} (hsel : selectOp Config.default ir = some o) :
    OperandFaults ir o.format := by
  rintro s hr rfl ho
  refine ⟨fun hpc => ?_, fun hpc hb => ?_, fun hfmt hpc hb => ?_, fun hfmt hpc hb1 hb2 => ?_⟩
  · rw [step_of_readOperands_error hr hsel (readOperands_error_of_first ho (operandReg_one_of_eq hpc)),
      State.raiseDecode, hpc]
    exact takesFault_raise s _ _
  · have hfirst := (operandReg_one_of_le hpc).trans (regRef_of_ge hb)
    rw [step_of_readOperands_error hr hsel (readOperands_error_of_first ho hfirst)]
    exact takesFault_raise s _ _
  · have hfirst := operandReg_one_of_lt (by omega) hb
    have hsecond := operandByte_two_of_ge (s := s) (by omega)
    rw [step_of_readOperands_error hr hsel (readOperands_error_of_second_address hfmt hfirst hsecond),
      State.raiseDecode, hpc]
    exact takesFault_raise s _ _
  · have hfirst := operandReg_one_of_lt (by omega) hb1
    have hsecond := (operandReg_two_of_le hpc).trans (regRef_of_ge hb2)
    rw [step_of_readOperands_error hr hsel (readOperands_error_of_second hfmt hfirst hsecond)]
    exact takesFault_raise s _ _

/-! ## ADD, MUL and CMP -/

/-- Settles O18: ADD's stage writes the byte sum to one register, and the advance does the rest. -/
theorem addIsTheSumMod256 : Obligations.AddIsTheSumMod256 := by
  obtain ⟨hforms, -⟩ := canonicalWordsDecode
  refine ⟨fun a b => ?_, operandFaults_of_selectOp (o := .add) (by decide),
    fun s n a b => ⟨fun hle => ?_, takesFault_of_advance_gt (i := .add n a b) rfl⟩⟩
  · obtain ⟨hadd, -⟩ := hforms a b 0 0
    exact hadd
  · obtain ⟨t, he, hreg, hflags, hkeeps, hpc, hrest⟩ := exec_of_advance_frame (i := .add n a b) rfl rfl nofun hle
    refine ⟨t, he, ?_, hkeeps, hpc, hflags, hrest⟩
    rw [hreg, State.reg_setReg_self, BitVec.toNat_add]

/-- Settles O19: the same of MUL, whose stage writes the byte product. -/
theorem mulIsTheProductMod256 : Obligations.MulIsTheProductMod256 := by
  obtain ⟨hforms, -⟩ := canonicalWordsDecode
  refine ⟨fun a b => ?_, operandFaults_of_selectOp (o := .mul) (by decide),
    fun s n a b => ⟨fun hle => ?_, takesFault_of_advance_gt (i := .mul n a b) rfl⟩⟩
  · obtain ⟨-, hmul, -⟩ := hforms a b 0 0
    exact hmul
  · obtain ⟨t, he, hreg, hflags, hkeeps, hpc, hrest⟩ := exec_of_advance_frame (i := .mul n a b) rfl rfl nofun hle
    refine ⟨t, he, ?_, hkeeps, hpc, hflags, hrest⟩
    rw [hreg, State.reg_setReg_self, BitVec.toNat_mul]

/-- The three flags of a comparison, as the order of the two bytes as naturals (R103, D7). -/
theorem compareBytes_iff (x y : Byte) :
    ((compareBytes x y).l = true ↔ x.toNat < y.toNat) ∧ ((compareBytes x y).e = true ↔ x.toNat = y.toNat) ∧
      ((compareBytes x y).g = true ↔ y.toNat < x.toNat) := by
  simp only [compareBytes, ← BitVec.toNat_inj]
  obtain h | h | h := lt_trichotomy x.toNat y.toNat
  · simp [h, h.ne, h.not_gt]
  · simp [h]
  · simp [h, h.ne', h.not_gt]

/-- Settles O20: CMP's stage writes the comparison of the two bytes to `FL` and nothing else. -/
theorem cmpSetsTheUnsignedThreeWayFlags : Obligations.CmpSetsTheUnsignedThreeWayFlags := by
  obtain ⟨hforms, -⟩ := canonicalWordsDecode
  refine ⟨fun a b => ?_, operandFaults_of_selectOp (o := .cmp) (by decide),
    fun s n a b => ⟨fun hle => ?_, takesFault_of_advance_gt (i := .cmp n a b) rfl⟩⟩
  · obtain ⟨-, -, hcmp, -⟩ := hforms a b 0 0
    exact hcmp
  · obtain ⟨t, he, -, hflags, hkeeps, hpc, hrest⟩ := exec_of_advance_frame (i := .cmp n a b) rfl rfl nofun hle
    obtain ⟨hl, heq, hg⟩ := compareBytes_iff (s.reg a) (s.reg b)
    rw [State.setFlags_flags] at hflags
    exact ⟨t, he, hflags ▸ hl, hflags ▸ heq, hflags ▸ hg, hkeeps, hpc, hrest⟩

/-! ## The causes a step can take (R105, R131) -/

theorem takesFault_of_selectOp_none {s : State} (hr : s.run = .running) (h : selectOp Config.default s.ir = none) :
    TakesFault (step s) s .invalidInstruction s.ir.toNat := by
  rw [step_of_selectOp_none hr h]
  exact takesFault_raise s _ _

/-- An instruction that runs from Running to Faulted took the fault of an address out of range: its other ways to end
keep `STATE` or halt. -/
theorem execWith_faulted {c : Config} {i : Instr} {s : State} (hr : s.run = .running)
    (h : (execWith c i s).run = .faulted) : ∃ info, execWith c i s = s.raise .addressOutOfRange info := by
  obtain ⟨w, hw, ⟨p, e⟩ | e⟩ | ⟨info, e, -⟩ := execWith_cases c i s
  · obtain ⟨-, hrun, -⟩ := stage_pc_run_fault hw
    rw [e, State.setPc_run, hrun, hr] at h
    cases h
  · rw [e, State.halt_run] at h
    cases h
  · exact ⟨info, e⟩

/-- A step to Faulted takes one of the three faults that the decoder and the address check raise. -/
theorem step_faulted {s t : State} (h : step s = .next t) (hf : t.run = .faulted) :
    ∃ cause info, t = s.raise cause info ∧
      (cause = .invalidInstruction ∨ cause = .invalidRegisterReference ∨ cause = .addressOutOfRange) := by
  obtain ⟨hr, ⟨e, -, rfl⟩ | ⟨i, -, rfl⟩⟩ := step_cases h
  · exact raiseDecode_eq s e
  · obtain ⟨info, e⟩ := execWith_faulted hr hf
    exact ⟨_, info, e, .inr (.inr rfl)⟩

/-- Settles O14: an `op` that its category does not list selects nothing, and neither internal cause is among the three
that a step can take. -/
theorem internalFaultsAreUnreachable : Obligations.InternalFaultsAreUnreachable := by
  refine ⟨fun s hr hs ha hop => ?_, fun s hr hs hop => ?_, fun s t f hstep hrun hfault => ?_⟩
  · have hcat : irCategory s.ir = .alu := irCategory_eq_iff.mpr ⟨hs, fun _ => ha⟩
    exact takesFault_of_selectOp_none hr (selectOp_default_eq_none (hcat ▸ hop))
  · exact illegalEncodingsRaiseInvalidInstruction s hr (.inr (.inr ⟨hs, hop⟩))
  · obtain ⟨cause, info, rfl, hcause⟩ := step_faulted hstep hrun
    rw [State.raise_fault] at hfault
    cases hfault
    rcases hcause with rfl | rfl | rfl <;> exact ⟨nofun, nofun⟩

end Sys2Proof.Machine

/-! SUPPORT. Control flow (42_control.md): the six conditional branches as one, their decisions after a comparison, and
what JMP, CALL and RET change and keep. -/

namespace Sys2Proof.Machine

/-! ## The conditional branches -/

/-- A conditional branch with its count and its test of `FL` (R119). -/
structure ConditionalBranch (mk : Count → Bool → Reg → Instr) (test : Flags → Bool) : Prop where
  count_eq : ∀ n f r, (mk n f r).count = n
  stage_eq : ∀ n f r s, stage Config.default (mk n f r) s = branchStage (test s.flags) r s

theorem conditionalBranch_jeq : ConditionalBranch .jeq Flags.isEqual := ⟨fun _ _ _ => rfl, fun _ _ _ _ => rfl⟩
theorem conditionalBranch_jne : ConditionalBranch .jne Flags.notEqual := ⟨fun _ _ _ => rfl, fun _ _ _ _ => rfl⟩
theorem conditionalBranch_jge : ConditionalBranch .jge Flags.greaterOrEqual := ⟨fun _ _ _ => rfl, fun _ _ _ _ => rfl⟩
theorem conditionalBranch_jgt : ConditionalBranch .jgt Flags.isGreater := ⟨fun _ _ _ => rfl, fun _ _ _ _ => rfl⟩
theorem conditionalBranch_jle : ConditionalBranch .jle Flags.lessOrEqual := ⟨fun _ _ _ => rfl, fun _ _ _ _ => rfl⟩
theorem conditionalBranch_jlt : ConditionalBranch .jlt Flags.isLess := ⟨fun _ _ _ => rfl, fun _ _ _ _ => rfl⟩

theorem Flags.isEqual_iff (f : Flags) : f.isEqual = true ↔ f = { l := false, e := true, g := false } := beq_iff_eq
theorem Flags.isGreater_iff (f : Flags) : f.isGreater = true ↔ f = { l := false, e := false, g := true } := beq_iff_eq
theorem Flags.isLess_iff (f : Flags) : f.isLess = true ↔ f = { l := true, e := false, g := false } := beq_iff_eq
theorem Flags.notEqual_iff (f : Flags) : f.notEqual = true ↔ f.e = false := by
  rw [notEqual, Bool.not_eq_true']
theorem Flags.greaterOrEqual_iff (f : Flags) : f.greaterOrEqual = true ↔ f.g = true ∨ f.e = true := by
  rw [greaterOrEqual, Bool.or_eq_true]
theorem Flags.lessOrEqual_iff (f : Flags) : f.lessOrEqual = true ↔ f.l = true ∨ f.e = true := by
  rw [lessOrEqual, Bool.or_eq_true]

theorem branchStage_of_not_taken {taken : Bool} (h : ¬taken = true) (r : Reg) (s : State) :
    branchStage taken r s = .advance s := if_neg h

/-- A branch whose test decides `p` jumps exactly when `p` holds. -/
theorem ConditionalBranch.jumpsIff {mk : Count → Bool → Reg → Instr} {test : Flags → Bool}
    (hb : ConditionalBranch mk test) (n : Count) (f : Bool) (r : Reg) {s : State} {p : Prop}
    (hp : test s.flags = true ↔ p) : JumpsIff (mk n f r) s r p := by
  refine ⟨fun h => exec_of_override ?_, fun h hle => exec_of_advance ?_ hle⟩
  · rw [hb.stage_eq, hp.mpr h]
    rfl
  · rw [hb.stage_eq, branchStage_of_not_taken (mt hp.mp h)]

/-- Setting `pc` keeps everything else. -/
theorem State.setPc_frame (s : State) (p : Byte) :
    s.keepsRegsExcept (s.setPc p) [] ∧ (s.setPc p).flags = s.flags ∧ s.keepsRest (s.setPc p) :=
  ⟨fun _ _ => rfl, rfl, fun _ => rfl, rfl, rfl, rfl⟩

/-- What R123 to R128 say of a branch: its test, taken or not, leads to its jump, its advance or its fault. -/
theorem ConditionalBranch.rule {mk : Count → Bool → Reg → Instr} {test : Flags → Bool} (hb : ConditionalBranch mk test)
    {ir : Byte} {o : Op} (hdecode : ∀ r : Reg, decode Config.default [ir, regByte r] = .ok (mk 1 false r))
    (hsel : selectOp Config.default ir = some o) (hfmt : o.format = .f1r) {taken : Flags → Prop}
    (htest : ∀ f, test f = true ↔ taken f) : BranchRule mk ir taken := by
  refine ⟨hdecode, hfmt ▸ operandFaults_of_selectOp hsel, fun s n f r => ?_⟩
  obtain ⟨hjump, hadvance⟩ := hb.jumpsIff n f r (htest s.flags)
  rw [hb.count_eq] at hadvance
  refine ⟨fun h => ⟨_, hjump h, rfl, s.setPc_frame _⟩, fun h hle => ?_, fun h hgt => ?_⟩
  · obtain ⟨q, hq, he⟩ := hadvance h hle
    exact ⟨_, he, hq, s.setPc_frame q⟩
  · have hstage : stage Config.default (mk n f r) s = .advance s := by
      rw [hb.stage_eq, branchStage_of_not_taken (mt (htest s.flags).mp h)]
    have hfault := takesFault_of_advance_gt hstage
    rw [hb.count_eq] at hfault
    exact hfault hgt

/-- Settles O29: the three tests compare all of `FL`. -/
theorem exactFlagBranches : Obligations.ExactFlagBranches := by
  obtain ⟨-, hforms, -⟩ := canonicalWordsDecode
  refine ⟨conditionalBranch_jeq.rule (o := .jeq) (fun r => ?_) (by decide) rfl Flags.isEqual_iff,
    conditionalBranch_jgt.rule (o := .jgt) (fun r => ?_) (by decide) rfl Flags.isGreater_iff,
    conditionalBranch_jlt.rule (o := .jlt) (fun r => ?_) (by decide) rfl Flags.isLess_iff⟩
  all_goals obtain ⟨-, -, hjeq, -, hjgt, hjlt, -⟩ := hforms r
  exacts [hjeq, hjgt, hjlt]

/-- Settles O30: the three tests look at single bits of `FL`. -/
theorem flagMemberBranches : Obligations.FlagMemberBranches := by
  obtain ⟨-, hforms, -⟩ := canonicalWordsDecode
  refine ⟨conditionalBranch_jne.rule (o := .jne) (fun r => ?_) (by decide) rfl Flags.notEqual_iff,
    conditionalBranch_jge.rule (o := .jge) (fun r => ?_) (by decide) rfl Flags.greaterOrEqual_iff,
    conditionalBranch_jle.rule (o := .jle) (fun r => ?_) (by decide) rfl Flags.lessOrEqual_iff⟩
  all_goals obtain ⟨-, -, -, hjne, -, -, hjle, hjge, -⟩ := hforms r
  exacts [hjne, hjge, hjle]

/-! ## The branch decisions after a comparison (R129) -/

/-- The six branches of a state jump by their tests of its `FL`. -/
theorem branchRow_flags (s : State) (m : Count) (f : Bool) (r : Reg) :
    BranchRow s m f r (s.flags = { l := false, e := true, g := false }) (s.flags.e = false)
      (s.flags.g = true ∨ s.flags.e = true) (s.flags = { l := false, e := false, g := true })
      (s.flags.l = true ∨ s.flags.e = true) (s.flags = { l := true, e := false, g := false }) :=
  ⟨conditionalBranch_jeq.jumpsIff m f r s.flags.isEqual_iff, conditionalBranch_jne.jumpsIff m f r s.flags.notEqual_iff,
    conditionalBranch_jge.jumpsIff m f r s.flags.greaterOrEqual_iff,
    conditionalBranch_jgt.jumpsIff m f r s.flags.isGreater_iff,
    conditionalBranch_jle.jumpsIff m f r s.flags.lessOrEqual_iff,
    conditionalBranch_jlt.jumpsIff m f r s.flags.isLess_iff⟩

/-- A legal value of `FL` with a bit set is that bit alone (R29). -/
theorem Flags.exact_iff_of_legal : ∀ {f : Flags}, f.legal = true →
    (f = { l := false, e := true, g := false } ↔ f.e = true) ∧
    (f = { l := false, e := false, g := true } ↔ f.g = true) ∧
    (f = { l := true, e := false, g := false } ↔ f.l = true)
  | ⟨l, e, g⟩ => by
    revert l e g
    decide

/-- When a comparison is exactly the value that JEQ, JGT and JLT test. -/
theorem compareBytes_exact_iff (x y : Byte) :
    (compareBytes x y = { l := false, e := true, g := false } ↔ x = y) ∧
    (compareBytes x y = { l := false, e := false, g := true } ↔ y.toNat < x.toNat) ∧
    (compareBytes x y = { l := true, e := false, g := false } ↔ x.toNat < y.toNat) := by
  obtain ⟨hl, he, hg⟩ := compareBytes_iff x y
  obtain ⟨hlegal, -⟩ := compareBytes_legal x y
  obtain ⟨hexactE, hexactG, hexactL⟩ := Flags.exact_iff_of_legal hlegal
  exact ⟨hexactE.trans (he.trans BitVec.toNat_inj), hexactG.trans hg, hexactL.trans hl⟩

/-- When a comparison has the bits that JNE, JGE and JLE test. -/
theorem compareBytes_member_iff (x y : Byte) :
    ((compareBytes x y).e = false ↔ x ≠ y) ∧
    ((compareBytes x y).g = true ∨ (compareBytes x y).e = true ↔ y.toNat ≤ x.toNat) ∧
    ((compareBytes x y).l = true ∨ (compareBytes x y).e = true ↔ x.toNat ≤ y.toNat) := by
  obtain ⟨hl, he, hg⟩ := compareBytes_iff x y
  refine ⟨?_, ?_, ?_⟩
  · rw [← Bool.not_eq_true, he, BitVec.toNat_inj]
  · rw [hg, he]
    omega
  · rw [hl, he]
    omega

/-- Settles O31: each row is the six tests at one value of `FL`, and a completing CMP leaves its comparison there. -/
theorem branchesFollowTheComparison : Obligations.BranchesFollowTheComparison := by
  refine ⟨fun s m f r => ?_, fun s t n m f a b r hle he => ?_⟩
  · have row := branchRow_flags s m f r
    refine ⟨fun h => ?_, fun h => ?_, fun h => ?_, fun h => ?_⟩ <;> simpa [h] using row
  · obtain ⟨q, -, hexec⟩ := exec_of_advance (i := .cmp n a b) rfl hle
    obtain rfl : (s.setFlags (compareBytes (s.reg a) (s.reg b))).setPc q = t := by simpa [hexec] using he
    obtain ⟨heq, hgt, hlt⟩ := compareBytes_exact_iff (s.reg a) (s.reg b)
    obtain ⟨hne, hge, hle⟩ := compareBytes_member_iff (s.reg a) (s.reg b)
    simpa only [State.setPc_flags, State.setFlags_flags, heq, hne, hge, hgt, hle, hlt]
      using branchRow_flags ((s.setFlags (compareBytes (s.reg a) (s.reg b))).setPc q) m f r

/-! ## JMP, RET and CALL -/

/-- Settles O28: JMP's stage writes nothing and overrides the PC with its register. -/
theorem jmpSetsTheProgramCounter : Obligations.JmpSetsTheProgramCounter := by
  obtain ⟨-, hforms, -⟩ := canonicalWordsDecode
  refine ⟨fun r => ?_, operandFaults_of_selectOp (o := .jmp) (by decide),
    fun s n f r => ⟨_, exec_of_override (i := .jmp n f r) rfl, rfl, s.setPc_frame _⟩⟩
  obtain ⟨-, hjmp, -⟩ := hforms r
  exact hjmp

/-- RET jumps to the byte at `sp`, moves `sp` up and keeps everything else, in every configuration (R121). -/
theorem execWith_ret (c : Config) (n : Count) (f : Bool) (ignored : Option Reg) (s : State) :
    (execWith c (.ret n f ignored) s).pc = s.readByte (s.reg 7) ∧
    (execWith c (.ret n f ignored) s).reg 7 = s.reg 7 + 1 ∧
    s.keepsRegsExcept (execWith c (.ret n f ignored) s) [7] ∧
    (execWith c (.ret n f ignored) s).flags = s.flags ∧ s.keepsRest (execWith c (.ret n f ignored) s) := by
  have hstage : StageWrites c (.ret n f ignored) s s.incrementSp := .inr (.inl ⟨_, rfl⟩)
  exact ⟨rfl, s.reg_incrementSp 7, (stage_frame hstage).regs, rfl, fun _ => rfl, rfl, rfl, rfl⟩

theorem stepWith_of_fetch_ok {c : Config} {s : State} {i : Instr} (hr : s.run = .running) (h : fetch c s = .ok i) :
    stepWith c s = .next (execWith c i s) := by
  simp only [stepWith, hr, h]

/-- Without `RET_DECODES_OPERAND` a RET byte is fetched whatever follows it, nothing included (R65, D9). -/
theorem fetch_bare_ret {c : Config} {s : State} (hc : c.retDecodesOperand = false)
    (hsel : selectOp c s.ir = some .ret) : fetch c s = .ok (.ret (irCount s.ir) (irAlu s.ir) none) := by
  rw [fetch_eq, hsel]
  simp only [readOperands, readF0S, hc, Bool.false_eq_true, if_false]

/-- Settles O27: RET's effect is the same in every configuration; without its operand byte the fetch still finds it. -/
theorem retPopsTheProgramCounter : Obligations.RetPopsTheProgramCounter := by
  obtain ⟨-, hforms, -⟩ := canonicalWordsDecode
  refine ⟨fun r => ?_, operandFaults_of_selectOp (o := .ret) (by decide), fun s n f ignored => ?_,
    fun c s hc hr hsel => ?_⟩
  · obtain ⟨-, -, -, -, -, -, -, -, hret⟩ := hforms r
    exact hret
  · exact ⟨_, exec_eq _ s, execWith_ret Config.default n f ignored s⟩
  · exact ⟨_, stepWith_of_fetch_ok hr (fetch_bare_ret hc hsel), execWith_ret c _ _ none s⟩

/-- The state of a CALL before its jump: the return address stands below `sp`, and `sp` is moved there (R120). -/
def State.pushReturn (s : State) : State := (s.writeByte s.pushAddress (s.pc + 2)).decrementSp

theorem State.reg_pushReturn (s : State) (q : Reg) :
    s.pushReturn.reg q = if q = 7 then s.reg 7 - 1 else s.reg q := reg_decrementSp ..

theorem State.keepsRegsExcept_pushReturn (s : State) : s.keepsRegsExcept s.pushReturn [7] := fun q hq => by
  rw [reg_pushReturn, if_neg (List.ne_of_not_mem_cons hq)]

theorem State.readByte_pushReturn_self {s : State} (h : s.mem.wf = true) :
    s.pushReturn.readByte s.pushAddress = s.pc + 2 := readByte_writeByte_self h _ _

theorem State.keepsMemoryExcept_pushReturn (s : State) : s.keepsMemoryExcept s.pushReturn s.pushAddress :=
  fun _ hb => s.readByte_writeByte_ne _ _ hb

/-- Where the return address exists, CALL pushes it and jumps to its register, read after the push (R120, D21). -/
theorem execWith_call {c : Config} {s : State} (h : s.pc.toNat + 2 ≤ 255 ∨ c.outOfRange = .wrap) (n : Count) (f : Bool)
    (r : Reg) : execWith c (.call n f r) s =
      s.pushReturn.setPc (if r = 7 then s.reg 7 - 1 else s.reg r) := by
  have hret : resolveAddress c (s.pc.toNat + 2) = some (s.pc + 2) := by
    rw [h.elim (resolveAddress_of_le c) fun hc => resolveAddress_of_wrap hc _, ofNat_toNat_add]
    rfl
  have hstage : stage c (.call n f r) s = .override s.pushReturn (s.pushReturn.reg r) := by
    simp only [stage, callStage, hret, State.pushReturn]
  rw [execWith, hstage, commit_override, State.reg_pushReturn]

/-- Where it does not, CALL takes the fault (R120). -/
theorem takesFault_call {s : State} (h : 255 < s.pc.toNat + 2) (n : Count) (f : Bool) (r : Reg) :
    TakesFault (exec (.call n f r) s) s .addressOutOfRange (s.pc.toNat + 2) := by
  have hret : resolveAddress Config.default (s.pc.toNat + 2) = none := resolveAddress_of_gt rfl h
  have hstage : stage Config.default (.call n f r) s = .raise .addressOutOfRange (s.pc.toNat + 2) := by
    simp only [stage, callStage, hret]
  rw [exec_eq, execWith, hstage, commit_raise]
  exact takesFault_raise s _ _

/-- The return address as a natural (R120, R43). -/
theorem toNat_pc_add_two (s : State) : (s.pc + 2).toNat = (s.pc.toNat + 2) % 256 := BitVec.toNat_add ..

/-- Settles O26: CALL pushes `pc + 2` and jumps wherever that address exists, under `wrap` everywhere. -/
theorem callPushesTheReturnAddress : Obligations.CallPushesTheReturnAddress := by
  obtain ⟨-, hforms, -⟩ := canonicalWordsDecode
  refine ⟨fun r => ?_, operandFaults_of_selectOp (o := .call) (by decide),
    fun s n f r => ⟨fun hle => ?_, fun hgt => takesFault_call hgt n f r⟩, fun c s n f r hc hwf => ?_⟩
  · obtain ⟨hcall, -⟩ := hforms r
    exact hcall
  · have he := (exec_eq _ s).trans (congrArg _ (execWith_call (.inl hle) n f r))
    refine ⟨_, he, s.reg_pushReturn 7, fun hwf => ?_, rfl, s.keepsMemoryExcept_pushReturn, s.keepsRegsExcept_pushReturn,
      rfl, rfl, rfl, rfl, rfl⟩
    rw [State.readByte_setPc, State.readByte_pushReturn_self hwf, toNat_pc_add_two, Nat.mod_eq_of_lt (by omega)]
  · rw [execWith_call (.inr hc), State.readByte_setPc, ← State.pushAddress_eq, State.readByte_pushReturn_self hwf,
      toNat_pc_add_two]
    exact ⟨rfl, rfl⟩

/-- Settles O37: RET reads the cell that CALL wrote, and moves `sp` back up. -/
theorem retUndoesCall : Obligations.RetUndoesCall := by
  intro s t n m f g r ignored hwf hpc he
  obtain ⟨-, -, hcall, -⟩ := callPushesTheReturnAddress
  obtain ⟨-, -, hret, -⟩ := retPopsTheProgramCounter
  obtain ⟨hcompletes, -⟩ := hcall s n f r
  obtain ⟨t', he', hsp, hreturn, hpush, hmem, hregs, -, hflags, hout, hrun, hfault⟩ := hcompletes (by omega)
  obtain rfl : t' = t := by simpa [he'] using he
  obtain ⟨u, hu, hpc', hsp', hregs', hflags', hmem', hout', hrun', hfault'⟩ := hret t' m g ignored
  refine ⟨u, hu, ?_, fun q _ => ?_, hflags'.trans hflags, fun b hb => (hmem' b).trans (hmem b hb), hout'.trans hout,
    hrun'.trans hrun, hfault'.trans hfault⟩
  · rw [hpc', hsp, ← hpush, hreturn hwf]
  · by_cases hq : q = 7
    · rw [hq, hsp', hsp, BitVec.sub_add_cancel]
    · have hq : q ∉ [7] := by simpa using hq
      rw [hregs' q hq, hregs q hq]

end Sys2Proof.Machine

/-! SUPPORT. Data operations (43_data.md): the host's rendering of an output byte, what PUSH writes, and what LDI, PRN,
PUSH, POP and HLT change and keep. -/

namespace Sys2Proof.Machine

/-! ## LDI -/

/-- Settles O21: LDI's stage writes the immediate to one register, and the advance does the rest. -/
theorem ldiLoadsTheImmediate : Obligations.LdiLoadsTheImmediate := by
  obtain ⟨hforms, -⟩ := canonicalWordsDecode
  refine ⟨fun r imm => ?_, operandFaults_of_selectOp (o := .ldi) (by decide),
    fun s n r imm => ⟨fun hle => ?_, takesFault_of_advance_gt (i := .ldi n r imm) rfl⟩⟩
  · obtain ⟨-, -, -, hldi, -⟩ := hforms 0 0 r imm
    exact hldi
  · obtain ⟨t, he, hreg, hflags, hkeeps, hpc, hrest⟩ := exec_of_advance_frame (i := .ldi n r imm) rfl rfl nofun hle
    exact ⟨t, he, (hreg r).trans (s.reg_setReg_self r imm), hkeeps, hpc, hflags, hrest⟩

/-! ## PRN and the text of its byte (R152, D14) -/

/-- The host's character of a decimal digit is the library's. -/
theorem charOfNat_eq_digitChar (d : Nat) : Char.ofNat (48 + d % 10) = Nat.digitChar (d % 10) := by
  have hdigit : ∀ k : Fin 10, Char.ofNat (48 + k) = Nat.digitChar k := by decide
  exact hdigit ⟨d % 10, Nat.mod_lt d (by omega)⟩

/-- The host renders a byte as its decimal digits and a newline, whether it has one, two or three of them. -/
theorem renderByte_eq (v : Byte) : renderByte v = Nat.toDigits 10 v.toNat ++ ['\n'] := by
  have hlt := v.isLt
  simp only [renderByte, charOfNat_eq_digitChar]
  congr 1
  split_ifs with h1 h2
  · rw [Nat.toDigits_of_lt_base h1, Nat.mod_eq_of_lt h1]
  · rw [Nat.toDigits_of_base_le (by omega) (by omega), Nat.toDigits_of_lt_base (by omega),
      Nat.mod_eq_of_lt (a := v.toNat / 10) (by omega)]
    rfl
  · rw [Nat.toDigits_of_base_le (by omega) (by omega), Nat.toDigits_of_base_le (by omega) (by omega),
      Nat.toDigits_of_lt_base (by omega), Nat.div_div_eq_div_mul, Nat.mod_eq_of_lt (a := v.toNat / 100) (by omega)]
    rfl

/-- Settles O22: PRN's stage appends the register to `OUT` and writes nothing else. -/
theorem prnAppendsTheRegisterToTheOutput : Obligations.PrnAppendsTheRegisterToTheOutput := by
  obtain ⟨hforms, -⟩ := canonicalWordsDecode
  refine ⟨fun r => ?_, operandFaults_of_selectOp (o := .prn) (by decide), renderByte_eq,
    fun s n r => ⟨fun hle => ?_, takesFault_of_advance_gt (i := .prn n r) rfl⟩⟩
  · obtain ⟨-, -, -, -, hprn, -⟩ := hforms 0 0 r 0
    exact hprn
  · obtain ⟨q, hq, he⟩ := exec_of_advance (i := .prn n r) rfl hle
    exact ⟨_, he, rfl, fun _ _ => rfl, hq, rfl, fun _ => rfl, rfl, rfl⟩

/-! ## PUSH and POP -/

/-- PUSH moves `sp` down and stores its register there, read after the decrement (R153, D21). -/
theorem pushStage_eq (r : Reg) (s : State) : pushStage r s =
    .advance (s.decrementSp.writeByte s.pushAddress (if r = 7 then s.reg 7 - 1 else s.reg r)) := by
  rw [pushStage, State.sp_decrementSp, State.reg_decrementSp, State.pushAddress_eq]

/-- Settles O23: PUSH's stage is one register write and one byte write, and the advance does the rest. -/
theorem pushStoresBelowTheStackPointer : Obligations.PushStoresBelowTheStackPointer := by
  obtain ⟨hforms, -⟩ := canonicalWordsDecode
  refine ⟨fun r => ?_, operandFaults_of_selectOp (o := .push) (by decide),
    fun s n r => ⟨fun hle => ?_, takesFault_of_advance_gt (i := .push n r) rfl⟩⟩
  · obtain ⟨-, -, -, -, -, hpush, -⟩ := hforms 0 0 r 0
    exact hpush
  · have hstage : stage Config.default (.push n r) s = _ := pushStage_eq r s
    obtain ⟨q, hq, he⟩ := exec_of_advance hstage hle
    exact ⟨_, he, s.reg_decrementSp 7, fun hwf => State.readByte_writeByte_self (s := s.decrementSp) hwf _ _, rfl,
      fun b hb => s.decrementSp.readByte_writeByte_ne _ _ hb, (stage_frame (.inl hstage)).regs,
      hq, rfl, rfl, rfl, rfl⟩

/-- Settles O24: POP's stage writes the byte at `sp` to its register before it moves `sp` up, so the second write is on
top of the first where the register is `sp`. -/
theorem popLoadsTheTopOfTheStack : Obligations.PopLoadsTheTopOfTheStack := by
  obtain ⟨hforms, -⟩ := canonicalWordsDecode
  refine ⟨fun r => ?_, operandFaults_of_selectOp (o := .pop) (by decide),
    fun s n r => ⟨fun hle => ?_, takesFault_of_advance_gt (i := .pop n r) rfl⟩⟩
  · obtain ⟨-, -, -, -, -, -, hpop⟩ := hforms 0 0 r 0
    exact hpop
  · obtain ⟨t, he, hreg, hflags, hkeeps, hpc, hrest⟩ := exec_of_advance_frame (i := .pop n r) rfl rfl nofun hle
    refine ⟨t, he, fun hr => ⟨?_, ?_⟩, fun hr => ?_, hkeeps, hpc, hflags, hrest⟩
    · rw [hreg, State.reg_incrementSp, if_neg hr, State.reg_setReg_self, State.stackTop_eq]
    · rw [hreg, State.reg_incrementSp, if_pos rfl, State.reg_setReg_ne _ _ _ _ hr.symm]
    · rw [hreg, State.reg_incrementSp, if_pos rfl, hr, State.reg_setReg_self, State.stackTop_eq]

/-- Settles O38: POP reads the cell that PUSH wrote, and moves `sp` back up. -/
theorem popAfterPushRoundTrips : Obligations.PopAfterPushRoundTrips := by
  intro s t n m r q hwf hq hr hle he hle'
  obtain ⟨-, -, hpush⟩ := pushStoresBelowTheStackPointer
  obtain ⟨-, -, hpop⟩ := popLoadsTheTopOfTheStack
  obtain ⟨hpushes, -⟩ := hpush s n r
  obtain ⟨t', he', hsp, hcell, haddr, hmem, hregs, -⟩ := hpushes hle
  obtain rfl : t' = t := by simpa [he'] using he
  obtain ⟨hpops, -⟩ := hpop t' m q
  obtain ⟨u, hu, hloads, -, hregs', -, -, hmem', -⟩ := hpops hle'
  obtain ⟨hload, hsp'⟩ := hloads hq
  have hvalue : t'.readByte s.pushAddress = s.reg r := (hcell hwf).trans (if_neg hr)
  have hrestored : u.reg 7 = s.reg 7 := by rw [hsp', hsp, BitVec.sub_add_cancel]
  refine ⟨u, hu, ?_, hrestored, fun p hp => ?_, (hmem' _).trans hvalue, fun b hb => (hmem' b).trans (hmem b hb)⟩
  · rw [hload, hsp, ← haddr, hvalue]
  · by_cases hp7 : p = 7
    · rw [hp7, hrestored]
    · rw [hregs' p (by simpa [hp7] using hp), hregs p (by simpa using hp7)]

/-! ## HLT -/

/-- Settles O25: HLT's four bytes are its encodings, and its stage writes nothing before the halt. -/
theorem hltStopsTheRun : Obligations.HltStopsTheRun := by
  refine ⟨fun rest => ?_, fun s n => ⟨s.halt, rfl, rfl, rfl, fun _ _ => rfl, rfl, fun _ => rfl, rfl, rfl,
    step_of_halted rfl⟩⟩
  have hdecode : ∀ n, decode Config.default (headByte n false false 1 :: rest) = .ok (.hlt n) := fun n =>
    decodeInvertsEncode Config.default (.hlt n) rest Config.default_valid rfl
  exact ⟨hdecode 0, hdecode 1, hdecode 2, hdecode 3⟩

end Sys2Proof.Machine

/-! SUPPORT. Exceptions (60_exceptions.md): the faults of one instruction in stage order, which operand byte a failed
operand read names, which address a fault of the execute stage or of the advance names, and the fault codes. -/

namespace Sys2Proof.Machine

/-! ## The order of the stages (R173) -/

theorem op_eq_call {i : Instr} (h : i.op = .call) : ∃ n f r, i = .call n f r := by
  cases i <;> cases h
  exact ⟨_, _, _, rfl⟩

/-- Settles O15: the lookup and the operand read are decided before anything executes, and a fetched instruction's
fault is CALL's return address or the advance. -/
theorem firstFaultInStageOrder : Obligations.FirstFaultInStageOrder := by
  refine ⟨fun s hr hsel => takesFault_of_selectOp_none hr hsel,
    fun s o hr hsel ho => operandFaults_of_selectOp hsel s hr rfl ho, fun s i hr hfetch => ?_⟩
  rw [step_of_fetch_ok hr hfetch]
  refine ⟨fun hcall hpc => ?_, fun hadv hgt => ?_⟩
  · obtain ⟨n, f, r, rfl⟩ := op_eq_call hcall
    simpa only [hpc] using takesFault_call (s := s) (by omega) n f r
  · obtain ⟨w, hw⟩ := stage_of_advances Config.default hadv
    exact takesFault_of_advance_gt hw hgt

/-! ## The address that an out-of-range fault names (R171, R172) -/

/-- The addresses above 255 that the instruction at `pc` can fault on: an operand's, CALL's return address, and the next
one, which only an instruction with an operand byte below 256 reaches. -/
def FaultAddress (s : State) (addr : Nat) : Prop :=
  255 < addr ∧ (addr = s.pc.toNat + 1 ∨ addr = s.pc.toNat + 2 ∨
    s.pc.toNat ≤ 254 ∧ addr = s.pc.toNat + 1 + (irCount s.ir).toNat)

/-- The range of these addresses: only a count of 3 at 254 gives the last one. -/
theorem FaultAddress.range {s : State} {addr : Nat} (h : FaultAddress s addr) :
    256 ≤ addr ∧ addr ≤ 258 ∧ (addr = 258 → irCount s.ir = 3 ∧ s.pc.toNat = 254) := by
  obtain ⟨hgt, haddr⟩ := h
  have hpc := s.pc.isLt
  have hn := (irCount s.ir).isLt
  refine ⟨hgt, by omega, fun h258 => ?_⟩
  have hcount : (irCount s.ir).toNat = 3 := by omega
  exact ⟨BitVec.eq_of_toNat_eq hcount, by omega⟩

theorem FaultAddress.eq_or {s : State} {addr : Nat} (h : FaultAddress s addr) :
    addr = s.pc.toNat + 1 ∨ addr = s.pc.toNat + 2 ∨ addr = s.pc.toNat + 1 + (irCount s.ir).toNat := by
  obtain ⟨-, haddr⟩ := h
  exact haddr.imp_right (.imp_right And.right)

/-- A fetched instruction that runs to Faulted faults on one of these addresses. -/
theorem execWith_faultAddress {s : State} {i : Instr} (hr : s.run = .running) (hfetch : fetch Config.default s = .ok i)
    (hf : (execWith Config.default i s).run = .faulted) :
    i.op ≠ .hlt ∧ ∃ addr, execWith Config.default i s = s.raise .addressOutOfRange addr ∧ FaultAddress s addr := by
  obtain ⟨w, hw, hwrite⟩ | ⟨addr, e, hgt, hop, haddr⟩ := execWith_cases Config.default i s
  · obtain ⟨-, hrun, -⟩ := stage_pc_run_fault hw
    obtain ⟨p, e⟩ | e := hwrite <;> simp [e, hrun, hr] at hf
  · obtain ⟨-, hcount⟩ := op_of_fetch hfetch
    rw [hcount] at haddr
    exact ⟨hop, addr, e, hgt, .inr (haddr.symm.imp_right fun h => ⟨pc_le_of_fetch hfetch hop, h⟩)⟩

/-! ## The operand byte that a failed operand read names (R84, R171) -/

/-- A failed operand read failed at the first operand byte, or at the second one where the format has one. -/
theorem readOperands_error_cases {n : Count} {f : Bool} {bytes : List Byte} {o : Op} {e : DecodeError}
    (h : readOperands Config.default n f bytes o = .error e) : o.format ≠ .f0 ∧
      (operandReg bytes 1 = .error e ∨ o.format = .f2rr ∧ operandReg bytes 2 = .error e ∨
        o.format = .f2ri ∧ operandByte bytes 2 = .error e) := by
  have ho : o.format ≠ .f0 := by
    intro hf0
    cases o <;> cases hf0
    cases h
  refine ⟨ho, ?_⟩
  cases h1 : operandReg bytes 1 with
  | error e' =>
    rw [readOperands_error_of_first ho h1] at h
    cases h
    exact .inl rfl
  | ok r =>
    right
    cases o with
    | hlt => cases h
    | add | mul | cmp =>
      simp only [readOperands, readF2RR, h1] at h
      split at h
      · cases h
      · next h2 => cases h; exact .inl ⟨rfl, h2⟩
    | ldi =>
      simp only [readOperands, readF2RI, h1] at h
      split at h
      · cases h
      · next h2 => cases h; exact .inr ⟨rfl, h2⟩
    | ret => simp [readOperands, readF0S, h1, Config.default] at h
    | push | pop | prn | call | jmp | jeq | jne | jgt | jlt | jle | jge => simp [readOperands, readF1R, h1] at h

/-- What an error of the operand read says of the bytes at `pc` (R171): a refused reference is the first operand byte,
or the second one of a format of two references; a missing byte is one whose address the instruction can fault on. -/
def OperandErrorNames (s : State) (o : Op) : DecodeError → Prop
  | .invalidInstruction _ => False
  | .invalidRegisterReference b => 8 ≤ b.toNat ∧
      (o.format ≠ .f0 ∧ s.pc.toNat ≤ 254 ∧ b.toNat = (s.mem.read (s.pc.toNat + 1)).toNat ∨
       o.format = .f2rr ∧ s.pc.toNat ≤ 253 ∧ b.toNat = (s.mem.read (s.pc.toNat + 2)).toNat)
  | .missingByte k => FaultAddress s (s.pc.toNat + k)

theorem regRef_eq_error {b : Byte} {e : DecodeError} (h : regRef b = .error e) :
    e = .invalidRegisterReference b ∧ 8 ≤ b.toNat := by
  by_cases hb : b.toNat < 8
  · rw [regRef_of_lt hb] at h
    cases h
  · rw [regRef_of_ge (by omega)] at h
    cases h
    exact ⟨rfl, by omega⟩

theorem operandByte_fetchBytes_error {s : State} {k : Nat} {e : DecodeError} (hk : k ≤ 2)
    (h : operandByte (fetchBytes Config.default s) k = .error e) : e = .missingByte k ∧ 255 < s.pc.toNat + k := by
  by_cases hle : s.pc.toNat + k ≤ 255
  · rw [operandByte_of_get (fetchBytes_of_le s hk hle)] at h
    cases h
  · rw [operandByte_of_none (fetchBytes_of_gt s hk (by omega))] at h
    cases h
    exact ⟨rfl, by omega⟩

/-- A register operand at distance `k` fails where its address does not exist, or on the byte at that address. -/
theorem operandReg_fetchBytes_error {s : State} {k : Nat} {e : DecodeError} (hk : k ≤ 2)
    (h : operandReg (fetchBytes Config.default s) k = .error e) :
    (e = .missingByte k ∧ 255 < s.pc.toNat + k) ∨
      (e = .invalidRegisterReference (s.mem.read (s.pc.toNat + k)) ∧ s.pc.toNat + k ≤ 255 ∧
        8 ≤ (s.mem.read (s.pc.toNat + k)).toNat) := by
  by_cases hle : s.pc.toNat + k ≤ 255
  · rw [operandReg, operandByte_of_get (fetchBytes_of_le s hk hle)] at h
    obtain ⟨he, hb⟩ := regRef_eq_error h
    exact .inr ⟨he, hle, hb⟩
  · rw [operandReg, operandByte_of_none (fetchBytes_of_gt s hk (by omega))] at h
    cases h
    exact .inl ⟨rfl, by omega⟩

/-- A fetch that fails after the lookup names an operand byte of the selected instruction. -/
theorem operandErrorNames_of_fetch {s : State} {o : Op} {e : DecodeError} (hsel : selectOp Config.default s.ir = some o)
    (h : fetch Config.default s = .error e) : o ≠ .hlt ∧ OperandErrorNames s o e := by
  rw [fetch_eq, hsel] at h
  obtain ⟨ho, hcases⟩ := readOperands_error_cases h
  refine ⟨fun hhlt => ho (hhlt ▸ rfl), ?_⟩
  obtain h1 | ⟨hfmt, h2⟩ | ⟨-, h2⟩ := hcases
  · obtain ⟨rfl, hgt⟩ | ⟨rfl, hle, hb⟩ := operandReg_fetchBytes_error (by omega) h1
    · exact ⟨hgt, .inl rfl⟩
    · exact ⟨hb, .inl ⟨ho, by omega, rfl⟩⟩
  · obtain ⟨rfl, hgt⟩ | ⟨rfl, hle, hb⟩ := operandReg_fetchBytes_error (by omega) h2
    · exact ⟨hgt, .inr (.inl rfl)⟩
    · exact ⟨hb, .inr ⟨hfmt, by omega, rfl⟩⟩
  · obtain ⟨rfl, hgt⟩ := operandByte_fetchBytes_error (by omega) h2
    exact ⟨hgt, .inr (.inl rfl)⟩

/-- A fetch that fails in the lookup fails with the instruction byte (R83). -/
theorem fetch_error_of_selectOp_none {s : State} {e : DecodeError} (hsel : selectOp Config.default s.ir = none)
    (h : fetch Config.default s = .error e) : e = .invalidInstruction s.ir := by
  rw [fetch_eq, hsel] at h
  exact (Except.error.inj h).symm

/-! ## The fault record and its code (R171) -/

theorem State.faultCode_of_none {s : State} (h : s.fault = none) : s.faultCode = 0 := by
  simp only [faultCode, h]

theorem State.faultCode_of_some {s : State} {f : FaultRecord} (h : s.fault = some f) : s.faultCode = f.cause.code := by
  simp only [faultCode, h]

/-- Settles O16: a step to Faulted failed in the lookup, in the operand read, or on an address of the fetched
instruction, and each of the three fixes the cause and the `info`. -/
theorem faultRecordsNameTheirCause : Obligations.FaultRecordsNameTheirCause := by
  refine ⟨fun s t hstep hrun => ?_, fun s h => State.faultCode_of_none h, fun s f h => ?_⟩
  · obtain ⟨hr, ⟨e, hfetch, rfl⟩ | ⟨i, hfetch, rfl⟩⟩ := step_cases hstep
    · cases hsel : selectOp Config.default s.ir with
      | none =>
        obtain rfl := fetch_error_of_selectOp_none hsel hfetch
        exact ⟨_, rfl, rfl, .inl ⟨rfl, rfl, rfl⟩⟩
      | some o =>
        obtain ⟨ho, hnames⟩ := operandErrorNames_of_fetch hsel hfetch
        cases e with
        | invalidInstruction ir => exact hnames.elim
        | invalidRegisterReference b =>
          obtain ⟨hb, hbyte⟩ := hnames
          exact ⟨_, rfl, rfl, .inr (.inl ⟨rfl, hb, o, rfl, hbyte⟩)⟩
        | missingByte k =>
          have haddr : FaultAddress s (s.pc.toNat + k) := hnames
          obtain ⟨hlo, hhi, h258⟩ := haddr.range
          exact ⟨_, rfl, rfl, .inr (.inr ⟨rfl, hlo, hhi, ⟨o, rfl, ho⟩, haddr.eq_or, h258⟩)⟩
    · obtain ⟨ho, addr, e, haddr⟩ := execWith_faultAddress hr hfetch hrun
      obtain ⟨hsel, -⟩ := op_of_fetch hfetch
      obtain ⟨hlo, hhi, h258⟩ := haddr.range
      rw [e, State.raise_fault]
      exact ⟨_, rfl, rfl, .inr (.inr ⟨rfl, hlo, hhi, ⟨i.op, hsel, ho⟩, haddr.eq_or, h258⟩)⟩
  · rw [State.faultCode_of_some h]
    cases f.cause <;> rfl

end Sys2Proof.Machine

/-! SUPPORT. Reset and load (70_reset_and_hazards.md): what memory reads after bytes are placed in it (R203), which images
the host accepts, and a placed table word as the instruction the next step runs. -/

namespace Sys2Proof.Machine

/-! ## Reading placed bytes (R203) -/

/-- Each placed byte reads back at its address: the later ones are written above it. -/
theorem Memory.read_place_getElem {m : Memory} (h : m.wf = true) {a : Nat} {bytes : List Byte}
    (hfit : a + bytes.length ≤ memSize) {k : Nat} (hk : k < bytes.length) :
    (m.place a bytes).read (a + k) = bytes[k] := by
  induction bytes generalizing m a k with
  | nil => cases hk
  | cons b bytes ih =>
    rw [List.length_cons] at hfit hk
    cases k with
    | zero => exact (read_place_of_lt _ _ bytes (Nat.lt_succ_self a)).trans (read_write_self h a b)
    | succ k =>
      rw [show a + (k + 1) = a + 1 + k by omega]
      exact ih (write_wf h (by omega) b) (by omega) (by omega)

/-- Placing bytes leaves every address above them as it was. -/
theorem Memory.read_place_of_ge (m : Memory) (a : Nat) (bytes : List Byte) {b : Nat} (hb : a + bytes.length ≤ b) :
    (m.place a bytes).read b = m.read b := by
  induction bytes generalizing m a with
  | nil => rfl
  | cons x bytes ih =>
    rw [List.length_cons] at hb
    rw [place, ih _ _ (by omega), read_write_ne _ _ _ (by omega)]

/-! ## Loading an image (R200, R203, R204) -/

theorem imageFits_iff (image : List Nat) : imageFits image = true ↔ image.length ≤ 256 ∧ ∀ w ∈ image, w ≤ 255 := by
  simp only [imageFits, Bool.and_eq_true, decide_eq_true_eq, List.all_eq_true]
  rfl

theorem bootWith_of_fits (c : Config) {image : List Nat} (h : imageFits image = true) : bootWith c image =
    some { State.resetWith c with mem := Memory.place [] 0 (image.map (BitVec.ofNat 8)) } := if_pos h

theorem bootWith_of_not_fits (c : Config) {image : List Nat} (h : ¬imageFits image = true) : bootWith c image = none :=
  if_neg h

/-- The registers after reset (R200): the stack pointer holds `SP_RESET`, the others 0. -/
theorem reg_resetWith (c : Config) : ∀ r : Reg, (State.resetWith c).reg r = if r = 7 then c.spReset else 0
  | 0 | 1 | 2 | 3 | 4 | 5 | 6 | 7 => rfl

/-- What memory reads after an accepted image is loaded at address 0: the image's word, and 0 above it (R203). -/
theorem toNat_read_place_image {image : List Nat} (hlen : image.length ≤ 256) (hw : ∀ w ∈ image, w ≤ 255) (k : Nat) :
    (Memory.read (Memory.place [] 0 (image.map (BitVec.ofNat 8))) k).toNat = image.getD k 0 := by
  have hmap : (image.map (BitVec.ofNat 8)).length = image.length := List.length_map ..
  by_cases hk : k < image.length
  · have hfit : 0 + (image.map (BitVec.ofNat 8)).length ≤ memSize := by rwa [Nat.zero_add, hmap]
    have hread := Memory.read_place_getElem Memory.wf_nil hfit (hmap.symm ▸ hk)
    rw [Nat.zero_add] at hread
    have hle := hw _ (List.getElem_mem hk)
    rw [hread, List.getElem_map, List.getD_eq_getElem _ _ hk, BitVec.toNat_ofNat, Nat.mod_eq_of_lt (by omega)]
  · rw [Memory.read_place_of_ge _ _ _ (by omega), List.getD_eq_default _ _ (by omega)]
    rfl

/-- Settles O1: the state of an accepted image is the reset state but for memory, which reads as the placed image. -/
theorem bootIsResetWithTheImageAtZero : Obligations.BootIsResetWithTheImageAtZero := by
  refine ⟨fun image hlen hw => ?_, fun image hbad => ?_, rfl⟩
  · exact ⟨_, bootWith_of_fits _ ((imageFits_iff image).mpr ⟨hlen, hw⟩), reg_resetWith Config.default, rfl, rfl, rfl, rfl,
      rfl, fun k _ => toNat_read_place_image hlen hw k⟩
  · refine bootWith_of_not_fits _ fun hfits => ?_
    obtain ⟨hlen, hw⟩ := (imageFits_iff image).mp hfits
    obtain hlong | ⟨w, hmem, hlarge⟩ := hbad
    · omega
    · exact absurd (hw w hmem) (by omega)

/-! ## A placed table word -/

theorem decode_of_decodeTableWord {nbits w : Nat} {i : Instr} (h : decodeTableWord nbits w = some i) :
    decode Config.default (tableBytes nbits w) = .ok i := by
  unfold decodeTableWord at h
  split at h
  · next hdec => cases h; exact hdec
  · cases h

/-- The longest instruction fits at the address where a word is placed. -/
theorem State.readyToFetch_pc_le (s : State) : s.readyToFetch.pc.toNat ≤ 253 := by
  dsimp only [readyToFetch]
  split
  · assumption
  · decide

theorem State.withFetchWord_pc (s : State) (nbits w : Nat) : (s.withFetchWord nbits w).pc = s.readyToFetch.pc := rfl

theorem State.withFetchWord_mem (s : State) (nbits w : Nat) :
    (s.withFetchWord nbits w).mem = s.mem.place s.readyToFetch.pc.toNat (tableBytes nbits w) := rfl

/-- The bytes of a placed word stand at `pc`. -/
theorem State.bytesAt_withFetchWord {s : State} (h : s.mem.wf = true) (nbits w : Nat) :
    (s.withFetchWord nbits w).bytesAt (tableBytes nbits w) := by
  intro k hk
  have hpc := s.readyToFetch_pc_le
  have hlen : (tableBytes nbits w).length = 3 := rfl
  rw [withFetchWord_pc, withFetchWord_mem]
  exact ⟨by omega, Memory.read_place_getElem h (by rw [memSize]; omega) hk⟩

/-- Settles O12: the placed bytes stand at `pc` of a Running machine, so it is an instance of O9. -/
theorem placedWordIsRunNext : Obligations.PlacedWordIsRunNext := by
  intro s nbits w i hwf hdec
  have hbytes := State.bytesAt_withFetchWord hwf nbits w
  obtain ⟨-, hstep⟩ := stepRunsTheDecodedInstruction _ _ _ rfl hbytes (decode_of_decodeTableWord hdec)
  exact hstep

end Sys2Proof.Machine
